-- ==== Sys2Proof/Word.lean ====
section
/-! DEFINITION. The word, the byte and the sizes that 00_scope.md R5 fixes. -/

namespace Sys2Proof

/-- A word, an address, `pc` and `sp`: XLEN = 32 bits (R5, R13). Arithmetic is modulo 2^32 (R13, log 8). -/
abbrev Word := BitVec 32

/-- A byte: one opcode, or one cell of a region's storage (R5, R41). -/
abbrev Byte := BitVec 8

/-- WORD_SIZE: bytes per word, the push/pop step of `sp`, the scale of every stack offset (R5). -/
abbrev wordSize : Nat := 4

/-- EMULATE_STRIDE: byte distance between EMULATE table slots (R5). -/
abbrev emulateStride : Nat := 32

end Sys2Proof
end

