-- ==== Sys2Proof/Config.lean ====
section
/-! DEFINITION. The implementation parameters of 00_scope.md R6, constant for the life of one machine. The region table,
R6's remaining parameter, stands in the machine's state as the base and size of each region (R41). -/

namespace Sys2Proof

/-- BYTE_ORDER: the byte order of every word in memory (R6, R47). -/
inductive ByteOrder where
  /-- big-endian: the most significant byte at the lowest address -/
  | be
  /-- little-endian: the least significant byte at the lowest address -/
  | le
deriving DecidableEq, Repr

/-- The other byte order. -/
def ByteOrder.other (order : ByteOrder) : ByteOrder :=
  match order with
  | .be => .le
  | .le => .be

/-- The parameters of R6, with R6's defaults where it gives one. -/
structure Config where
  /-- BYTE_ORDER -/
  byteOrder : ByteOrder := .be
  /-- STRICT: whether a step reports its conditions on the status output (R164) -/
  strict : Bool := false
  /-- ALIGN_CHECK: under STRICT, whether MisalignedAccess is reported (R164) -/
  alignCheck : Bool := false
  /-- IDIM_BIT: which bit of the 8-bit `flags` view shows `idim` (R25) -/
  idimBit : Fin 8 := 0
  /-- RESET_PC: `pc` after reset (R30) -/
  resetPc : Word
  /-- RESET_SP: `sp` after reset (R30) -/
  resetSp : Word
deriving DecidableEq, Repr

/-- DESIGN CHOICE (log 4): the convention of R192, RESET_PC = 0 and RESET_SP one past the last byte of the RAM region,
with every default of R6. -/
def Config.conventional : Config := { resetPc := 0x00000000#32, resetSp := 0x00010000#32 }

end Sys2Proof
end

