-- ==== Sys2Proof/Machine/State.lean ====
section
/-! DEFINITION. The machine's state (10_state.md), the two reason types, construction and the state after reset. -/

namespace Sys2Proof.Machine

/-- The storage of one region (20_memory.md R41): pairs of an offset and the byte there, sparse. An offset that is not
listed holds `Memory.unlisted` (Ops.lean, log 3). Its canonical form is `Memory.wf` (Ops.lean). -/
abbrev Memory := List Host.Cell

/-- One region: `{ base, size, storage }` (R41). `base` and `size` never change after construction. -/
structure Region where
  /-- the address of the region's first byte -/
  base : Word
  /-- the region's length in bytes -/
  size : Word
  /-- `storage[k]`, for `k < size`, is the byte at address `base + k` -/
  storage : Memory
deriving DecidableEq, Repr

/-- The architectural state of 10_state.md (`pc`, `sp`, `idim` and the storage of each region) and, beside it, the
configuration, which no step changes (00_scope.md R6, log 1). -/
@[ext]
structure State where
  /-- the parameters of R6, constant for the life of one machine -/
  cfg : Config
  /-- REGIONS, index 0 first (R41): bases and sizes are constant, the storage is the state of memory (R28) -/
  regions : List Region
  /-- the byte address of the next opcode to fetch (R21) -/
  pc : Word
  /-- the byte address of the top-of-stack word (R22) -/
  sp : Word
  /-- IDIM: in the middle of a chained immediate-load sequence (R24) -/
  idim : Bool
deriving DecidableEq, Repr

/-- `s` with another `pc`. -/
def State.withPc (s : State) (pc : Word) : State := { s with pc := pc }

/-- `s` with another `sp`. -/
def State.withSp (s : State) (sp : Word) : State := { s with sp := sp }

/-- `s` with another `idim`. -/
def State.withIdim (s : State) (idim : Bool) : State := { s with idim := idim }

/-- `s` with another region table. -/
def State.withRegions (s : State) (regions : List Region) : State := { s with regions := regions }

/-- Faults: none. The hardware raises no exception and every condition another machine would trap on has a defined, silent
result (60_exceptions.md R160, R161), so nothing raises one (safe: log 16). -/
inductive Fault where
deriving DecidableEq, Repr

/-- Why a step has no defined next state. -/
inductive Refusal where
  /-- Raised by an arm of `exec` whose instruction has no meaning yet. Safe. No arm raises it. -/
  | notModelled (mnemonic : String)
  /-- Raised by a word read or write at `address` that starts in a region and does not lie wholly in it: the spec gives no
  next state and requires a model to refuse (20_memory.md R48, D7, log 10). Safe: no claim about such a step can be proved
  but that it is refused. -/
  | wordNotContained (address : Word)
deriving DecidableEq, Repr

/-- Construction, the one reset there is (70_reset_and_hazards.md R190, 00_scope.md R7): `pc` and `sp` take RESET_PC and
RESET_SP, `idim` is 0 (D2, log 5), memory is what the loader supplied. Nothing else is validated (R191); an empty region
table is outside the contract and is refused here (R195, U6, log 18). -/
def State.construct (cfg : Config) (regions : List Region) : Option State :=
  match regions with
  | [] => none
  | _ :: _ => some { cfg, regions, pc := cfg.resetPc, sp := cfg.resetSp, idim := false }

/-- DESIGN CHOICE (log 4): the region table of R192's conventional platform, one region `[0, 0x10000)`. Nothing is loaded:
every byte reads as `Memory.unlisted` (log 3). -/
def conventionalRegions : List Region := [{ base := 0x00000000#32, size := 0x00010000#32, storage := [] }]

/-- The machine right after reset on R192's conventional platform (log 3, log 4, log 5). `construct_conventional`
(Laws/State.lean) says that it is what construction gives. -/
def State.reset : State where
  cfg := Config.conventional
  regions := conventionalRegions
  pc := Config.conventional.resetPc
  sp := Config.conventional.resetSp
  idim := false

end Sys2Proof.Machine
end

