-- ==== Sys2Proof/Machine/Ops.lean ====
section
/-! DEFINITION. The named operations: one region's storage, the address translator (20_memory.md R40 to R48), the step's
transaction with its report set (60_exceptions.md R164), the memory and stack primitives (00_scope.md R14, 10_state.md
R23) and the register writes. The hardware takes no exception and returns from none (R160, R167, R168), so there is no
such operation; EMULATE's call (46_emulate_unsupported.md R150) is an ordinary instruction over `push`. -/

namespace Sys2Proof.Machine

/-! ### One region's storage -/

/-- What an unlisted byte of a region's storage reads as. DESIGN CHOICE (log 3): 0, as in the scenario that
70_reset_and_hazards.md R193 names. A list of cells can hold any contents the loader supplies. -/
def Memory.unlisted : Byte := 0x00#8

/-- The byte of the storage at offset `k`. -/
def Memory.read (m : Memory) (k : Nat) : Byte :=
  match m with
  | [] => Memory.unlisted
  | (j, b) :: rest => if j = k then b else Memory.read rest k

/-- The cell `(k, b)` put before the first cell at a greater offset. -/
def Memory.insert (m : Memory) (k : Nat) (b : Byte) : Memory :=
  match m with
  | [] => [(k, b)]
  | (j, c) :: rest => if k < j then (k, b) :: (j, c) :: rest else (j, c) :: Memory.insert rest k b

/-- The storage without any cell at offset `k`. -/
def Memory.erase (m : Memory) (k : Nat) : Memory := m.filter fun c => c.1 != k

/-- The storage with byte `b` at offset `k`, in canonical form: writing the byte an unlisted offset reads as unlists it. -/
def Memory.write (m : Memory) (k : Nat) (b : Byte) : Memory :=
  if b = Memory.unlisted then m.erase k else (m.erase k).insert k b

/-- The canonical form of a storage: offsets strictly rising, and no cell that reads as an unlisted one does. -/
abbrev Memory.wf (m : Memory) : Prop :=
  m.Pairwise (fun c d => c.1 < d.1) ∧ ∀ c ∈ m, c.2 ≠ Memory.unlisted

/-! ### The address translator -/

/-- The region matches the address: `a >= base` and `a - base < size`, unsigned (R42). -/
def Region.matchesAddress (r : Region) (a : Word) : Bool :=
  decide (r.base.toNat ≤ a.toNat ∧ a.toNat - r.base.toNat < r.size.toNat)

/-- `Translate` over a region table: the first matching region's index, and the offset `a - base` (R42, R43). -/
def translateIn (regions : List Region) (a : Word) : Option (Nat × Nat) :=
  match regions with
  | [] => none
  | r :: rest =>
    if r.matchesAddress a then some (0, a.toNat - r.base.toNat)
    else (translateIn rest a).map fun x => (x.1 + 1, x.2)

/-- `Translate(a)` (R42). The lookup is redone for every access (R42, R62). -/
def State.translate (s : State) (a : Word) : Option (Nat × Nat) := translateIn s.regions a

/-- `a` is mapped: some region matches it (R42). -/
def State.mapped (s : State) (a : Word) : Bool := (s.translate a).isSome

/-- The size in bytes of region `i`. -/
def regionSize (regions : List Region) (i : Nat) : Nat :=
  match regions[i]? with
  | some r => r.size.toNat
  | none => 0

/-- `storage_i[off]` (R41). -/
def storageByte (regions : List Region) (i off : Nat) : Byte :=
  match regions[i]? with
  | some r => r.storage.read off
  | none => Memory.unlisted

/-- `storage_i[off] <- b` (R46). Bases and sizes stay (R41). -/
def setStorageByte (regions : List Region) (i off : Nat) (b : Byte) : List Region :=
  regions.modify i fun r => { r with storage := r.storage.write off b }

/-! ### Byte order -/

/-- `FromWire`: the word of four bytes, `b0` the one at the lowest address (R47, log 13). -/
def fromWire (order : ByteOrder) (b0 b1 b2 b3 : Byte) : Word :=
  match order with
  | .be => b0 ++ b1 ++ b2 ++ b3
  | .le => b3 ++ b2 ++ b1 ++ b0

/-- Byte `k` = 0..3 of `ToWire(v)`, byte 0 the one at the lowest address: `v[31-8k : 24-8k]` under BE and
`v[8k+7 : 8k]` under LE (R47, R49). -/
def toWire (order : ByteOrder) (v : Word) (k : Nat) : Byte :=
  match order with
  | .be => v.extractLsb' (24 - 8 * k) 8
  | .le => v.extractLsb' (8 * k) 8

/-! ### The three accesses, as functions of the state -/

/-- What `MemRead(a, 1)` returns (R44): the byte at `a`, or 0x00 if `a` is unmapped. -/
def State.readByte (s : State) (a : Word) : Byte :=
  match s.translate a with
  | some (i, off) => storageByte s.regions i off
  | none => 0x00#8

/-- A word access at `a` has a defined result: `a` is unmapped, or all four bytes lie in the region that matches `a`
(R45, R46, R48). Only the word's first byte is looked up. -/
def State.wordDefined (s : State) (a : Word) : Bool :=
  match s.translate a with
  | some (i, off) => decide (off + 3 < regionSize s.regions i)
  | none => true

/-- What `MemRead(a, 4)` returns where `wordDefined` (R45): the word at `a` in BYTE_ORDER, or 0 if `a` is unmapped.
`memReadWord` refuses the access elsewhere (R48). A misaligned `a` is used as it stands (R50, log 9). -/
def State.readWord (s : State) (a : Word) : Word :=
  match s.translate a with
  | some (i, off) =>
    fromWire s.cfg.byteOrder (storageByte s.regions i off) (storageByte s.regions i (off + 1))
      (storageByte s.regions i (off + 2)) (storageByte s.regions i (off + 3))
  | none => 0x00000000#32

/-- The region table after `MemWrite(a, 4, v)` where `wordDefined` (R46): the word's four bytes are stored in BYTE_ORDER,
or nothing is if `a` is unmapped. `memWriteWord` refuses the access elsewhere (R48). -/
def State.writeWordRegions (s : State) (a v : Word) : List Region :=
  match s.translate a with
  | some (i, off) =>
    let byte := toWire s.cfg.byteOrder v
    setStorageByte (setStorageByte (setStorageByte (setStorageByte s.regions i off (byte 0)) i (off + 1) (byte 1))
      i (off + 2) (byte 2)) i (off + 3) (byte 3)
  | none => s.regions

/-- The state after `MemWrite(a, 4, v)`: only the storage changes. -/
def State.writeWord (s : State) (a v : Word) : State := s.withRegions (s.writeWordRegions a v)

/-- `a` is a multiple of 4: `a[1:0] = 0`. -/
def wordAligned (a : Word) : Bool := a.extractLsb' 0 2 = 0#2

/-! ### The report set of a step (R164) -/

/-- A condition that a step can report (60_exceptions.md R163, R164). -/
inductive Condition where
  /-- access, read or write or fetch, outside all regions -/
  | unmappedAddress
  /-- word access at an address that is not a multiple of 4, when ALIGN_CHECK -/
  | misalignedAccess
  /-- byte matching none of the enumerated instruction forms -/
  | unknownOpcode
deriving DecidableEq, Repr

/-- The status set of a step: which conditions it holds (R164). -/
structure Report where
  /-- the set holds UnmappedAddress -/
  unmappedAddress : Bool := false
  /-- the set holds MisalignedAccess -/
  misalignedAccess : Bool := false
  /-- the set holds UnknownOpcode -/
  unknownOpcode : Bool := false
deriving DecidableEq, Repr

/-- The empty set, which every step starts with (R164). -/
def Report.empty : Report := {}

/-- The set that holds one condition. -/
def Report.single (c : Condition) : Report :=
  match c with
  | .unmappedAddress => { unmappedAddress := true }
  | .misalignedAccess => { misalignedAccess := true }
  | .unknownOpcode => { unknownOpcode := true }

/-- The conditions of either set. -/
def Report.union (p q : Report) : Report where
  unmappedAddress := p.unmappedAddress || q.unmappedAddress
  misalignedAccess := p.misalignedAccess || q.misalignedAccess
  unknownOpcode := p.unknownOpcode || q.unknownOpcode

/-- What a word access at `a` adds to the set (R45, R46, R164): UnmappedAddress if `a` is unmapped, MisalignedAccess if
ALIGN_CHECK and `a` is not a multiple of 4, whether or not `a` is mapped. -/
def State.wordReport (s : State) (a : Word) : Report where
  unmappedAddress := !s.mapped a
  misalignedAccess := s.cfg.alignCheck && !wordAligned a

/-- What a byte access at `a` adds to the set (R44, R164). -/
def State.byteReport (s : State) (a : Word) : Report where
  unmappedAddress := !s.mapped a

/-! ### The step as a transaction -/

/-- A step in progress: the state so far and the conditions reported so far (R164). -/
structure Transaction where
  /-- the state as the statements executed so far leave it -/
  state : State
  /-- the conditions reported so far -/
  reported : Report
deriving DecidableEq, Repr

/-- A block of the spec's pseudocode: its statements execute in the order written, each sees the effects of the ones
before it (R14, log 19), and it can be refused (R48). -/
abbrev Action (α : Type) := StateT Transaction (Except Refusal) α

/-- The state at this point of the block. -/
def current : Action State := fun t => .ok (t.state, t)

/-- Replace the state by `f` of it. -/
def update (f : State → State) : Action Unit := fun t => .ok ((), { t with state := f t.state })

/-- Add the conditions of `r` to the step's set. No effect on the state. -/
def note (r : Report) : Action Unit := fun t => .ok ((), { t with reported := t.reported.union r })

/-- `report(E)` (R14, R164). -/
def report (c : Condition) : Action Unit := note (Report.single c)

/-- Refuse the step: it has no defined next state. -/
def refuse (r : Refusal) : Action Unit := fun _ => .error r

/-- The part that the word read and the word write share (R45, R46): the containment that R48 requires, and the report. -/
def checkWord (a : Word) : Action Unit := do
  let s ← current
  if s.wordDefined a then note (s.wordReport a) else refuse (.wordNotContained a)

/-- `MemRead(a, 1)`, `read_opcode_byte` (R44). -/
def memReadByte (a : Word) : Action Byte := do
  let s ← current
  note (s.byteReport a)
  return s.readByte a

/-- `MemRead(a, 4)`, `read_word` (R45). -/
def memReadWord (a : Word) : Action Word := do
  checkWord a
  let s ← current
  return s.readWord a

/-- `MemWrite(a, 4, v)`, `write_word` (R46). -/
def memWriteWord (a v : Word) : Action Unit := do
  checkWord a
  update fun s => s.writeWord a v

/-! ### Registers -/

/-- Read `sp` (R22). -/
def readSp : Action Word := do
  let s ← current
  return s.sp

/-- `sp <- v` (R22): any 32-bit value. -/
def writeSp (v : Word) : Action Unit := update fun s => s.withSp v

/-- Read `pc` (R21): during a step it holds the address of the opcode byte until the step's `pc` update. -/
def readPc : Action Word := do
  let s ← current
  return s.pc

/-- `pc <- t` (R21): any 32-bit value. -/
def writePc (target : Word) : Action Unit := update fun s => s.withPc target

/-- `pc <- pc + 1`, modulo 2^32 (R21, R71). -/
def advancePc : Action Unit := do
  let pc ← readPc
  writePc (pc + 1#32)

/-! ### The stack primitives (R23) -/

/-- `Push(v)`: `sp <- sp - 4`, then the write at the new `sp`. -/
def push (v : Word) : Action Unit := do
  let sp ← readSp
  writeSp (sp - 4#32)
  memWriteWord (sp - 4#32) v

/-- `Pop()`: the word at `sp`, then `sp <- sp + 4`. -/
def pop : Action Word := do
  let sp ← readSp
  let t ← memReadWord sp
  writeSp (sp + 4#32)
  return t

/-- `Top()`: the word at `sp`; `sp` unchanged. -/
def top : Action Word := do
  let sp ← readSp
  memReadWord sp

/-- `SetTop(v)`: the write at `sp`; `sp` unchanged. -/
def setTop (v : Word) : Action Unit := do
  let sp ← readSp
  memWriteWord sp v

/-! ### Running a block as a whole step -/

/-- The outcome of a block from a state: the state it leaves, or its refusal. A refused step changes nothing (R167). -/
def commit (block : Action Unit) (s : State) : Host.Outcome State Fault Refusal :=
  match block { state := s, reported := Report.empty } with
  | .ok (_, t) => .next t.state
  | .error r => .refused r

/-- The conditions a block reports from a state, or its refusal. -/
def reportOf (block : Action Unit) (s : State) : Except Refusal Report :=
  match block { state := s, reported := Report.empty } with
  | .ok (_, t) => .ok t.reported
  | .error r => .error r

end Sys2Proof.Machine
end

