-- ==== Sys2Proof/Machine/Flags.lean ====
section
/-! DEFINITION. The one flag, `idim` (10_state.md R24), and the 8-bit `flags` view (R25). There is no carry, zero, negative
or overflow flag and no condition code: an instruction computes no flag from its result (R24, R135). -/

namespace Sys2Proof.Machine

/-- Read `idim`. Only IM does (R24). -/
def readIdim : Action Bool := do
  let s ← current
  return s.idim

/-- `idim <- 1`. Only IM does (R24). -/
def setIdim : Action Unit := update fun s => s.withIdim true

/-- `idim <- 0`: the 15 instructions of R24's second row. -/
def clearIdim : Action Unit := update fun s => s.withIdim false

/-- The `flags` register as the inspection interface shows it: bit IDIM_BIT is `idim`, the other seven bits are 0 (R25,
D3, log 6). It is a view, not state: no instruction reads or writes it. -/
def State.flags (s : State) : BitVec 8 := (if s.idim then 1#8 else 0#8) <<< s.cfg.idimBit.val

end Sys2Proof.Machine
end

