-- ==== Sys2Proof/Machine/Operands.lean ====
section
/-! DEFINITION. The operand forms (30_encoding.md R75 to R77) and the operations on words (44_alu.md R135). -/

namespace Sys2Proof.Machine

/-- The word that IM pushes when it starts a value: `sext_7(p)`, payload bit 6 copied to bits 7..31 (R75). -/
def imStart (p : BitVec 7) : Word := p.signExtend 32

/-- The word that IM leaves when it extends a value: `(old << 7) | zext_32(p)`, bits shifted past bit 31 lost (R75). -/
def imExtend (old : Word) (p : BitVec 7) : Word := (old <<< 7) ||| p.setWidth 32

/-- The address `sp + 4*k` of the word at word offset `k` from `sp`, modulo 2^32 (R76, R77, R100 to R102). -/
def stackAddress (sp : Word) (k : Nat) : Word := sp + BitVec.ofNat 32 (wordSize * k)

/-- The entry address `n * 32` of EMULATE slot `n` (R77, R150). -/
def slotAddress (n : Nat) : Word := BitVec.ofNat 32 (emulateStride * n)

/-- The bit reversal of FLIP: bit `i` of the input is bit `31 - i` of the result (R134). -/
def flipBits (v : Word) : Word := v.reverse

end Sys2Proof.Machine
end

