-- ==== Sys2Proof/Machine/Alu.lean ====
section
/-! DEFINITION. ADD, AND, OR, NOT and FLIP (44_alu.md R130 to R135). -/

namespace Sys2Proof.Machine

/-- The block that ADD, AND and OR share (R130 to R132): pop `a`, peek `b`, replace the top by `op a b`. -/
def binaryBlock (op : Word → Word → Word) : Action Unit := do
  let a ← pop
  let b ← top
  setTop (op a b)
  clearIdim
  advancePc

/-- The block that NOT and FLIP share (R133, R134): replace the top by `op` of it. -/
def unaryBlock (op : Word → Word) : Action Unit := do
  let v ← top
  setTop (op v)
  clearIdim
  advancePc

/-- ADD (R130): the sum modulo 2^32; overflow sets nothing (R135). -/
def addBlock : Action Unit := binaryBlock fun a b => a + b

/-- AND (R131): bitwise, 32 bits. -/
def andBlock : Action Unit := binaryBlock fun a b => a &&& b

/-- OR (R132): bitwise, 32 bits. -/
def orBlock : Action Unit := binaryBlock fun a b => a ||| b

/-- NOT (R133): every one of the 32 bits inverted. -/
def notBlock : Action Unit := unaryBlock fun v => ~~~v

/-- FLIP (R134): the word with its bits in reverse order. -/
def flipBlock : Action Unit := unaryBlock flipBits

/-- ADD (R130). -/
def execAdd (s : State) : Host.Outcome State Fault Refusal := commit addBlock s

/-- AND (R131). -/
def execAnd (s : State) : Host.Outcome State Fault Refusal := commit andBlock s

/-- OR (R132). -/
def execOr (s : State) : Host.Outcome State Fault Refusal := commit orBlock s

/-- NOT (R133). -/
def execNot (s : State) : Host.Outcome State Fault Refusal := commit notBlock s

/-- FLIP (R134). -/
def execFlip (s : State) : Host.Outcome State Fault Refusal := commit flipBlock s

end Sys2Proof.Machine
end

