-- ==== Sys2Proof/Machine/Emulate.lean ====
section
/-! DEFINITION. EMULATE (46_emulate_unsupported.md R150, R151). -/

namespace Sys2Proof.Machine

/-- EMULATE (R150): pushes `pc + 1`, the return address, and jumps to the slot's entry address. It saves nothing else,
changes no mode and masks nothing (R167). -/
def emulateBlock (n : Nat) : Action Unit := do
  let pc ← readPc
  push (pc + 1#32)
  clearIdim
  writePc (slotAddress n)

/-- EMULATE (R150). -/
def execEmulate (n : Nat) (s : State) : Host.Outcome State Fault Refusal := commit (emulateBlock n) s

end Sys2Proof.Machine
end

