-- ==== Sys2Proof/Machine/ImmediateLoad.lean ====
section
/-! DEFINITION. IM (40_im.md R90 to R92). -/

namespace Sys2Proof.Machine

/-- IM (R90): with `idim` = 0 it pushes the sign-extended payload, with `idim` = 1 it extends the word on top of the
stack in place. The branch depends on `idim` alone. -/
def imBlock (p : BitVec 7) : Action Unit := do
  let idim ← readIdim
  if idim then
    let t ← top
    setTop (imExtend t p)
  else
    push (imStart p)
  setIdim
  advancePc

/-- IM (R90). -/
def execIm (p : BitVec 7) (s : State) : Host.Outcome State Fault Refusal := commit (imBlock p) s

end Sys2Proof.Machine
end

