-- ==== Sys2Proof/Machine/JumpLoadStore.lean ====
section
/-! DEFINITION. POPPC, LOAD and STORE (42_poppc_load_store.md R110 to R112). -/

namespace Sys2Proof.Machine

/-- POPPC (R110): the popped word is the next `pc` itself; any 32-bit value is a legal target. -/
def poppcBlock : Action Unit := do
  let t ← pop
  clearIdim
  writePc t

/-- LOAD (R111): the word on top of the stack is replaced by the word it addresses. -/
def loadBlock : Action Unit := do
  let a ← top
  let v ← memReadWord a
  setTop v
  clearIdim
  advancePc

/-- STORE (R112): pops the address, then the value, and writes the value at the address. -/
def storeBlock : Action Unit := do
  let a ← pop
  let v ← pop
  memWriteWord a v
  clearIdim
  advancePc

/-- POPPC (R110). -/
def execPoppc (s : State) : Host.Outcome State Fault Refusal := commit poppcBlock s

/-- LOAD (R111). -/
def execLoad (s : State) : Host.Outcome State Fault Refusal := commit loadBlock s

/-- STORE (R112). -/
def execStore (s : State) : Host.Outcome State Fault Refusal := commit storeBlock s

end Sys2Proof.Machine
end

