-- ==== Sys2Proof/Machine/NoOperation.lean ====
section
/-! DEFINITION. NOP and BREAKPOINT (45_nop_breakpoint.md R140, R141) and the four unsupported bytes
(46_emulate_unsupported.md R152). -/

namespace Sys2Proof.Machine

/-- NOP (R140): clears `idim`. -/
def nopBlock : Action Unit := do
  clearIdim
  advancePc

/-- BREAKPOINT (R141): `idim` is unchanged (D19, C2, log 15), and nothing traps, halts or is reported. -/
def breakpointBlock : Action Unit := advancePc

/-- An unsupported byte (R152): reports UnknownOpcode, leaves `idim` as it was. -/
def unsupportedBlock : Action Unit := do
  report .unknownOpcode
  advancePc

/-- The unsupported byte 0x01 (R152). -/
def unsupported01Block : Action Unit := unsupportedBlock

/-- The unsupported byte 0x03 (R152). -/
def unsupported03Block : Action Unit := unsupportedBlock

/-- The unsupported byte 0x0E (R152). -/
def unsupported0EBlock : Action Unit := unsupportedBlock

/-- The unsupported byte 0x0F (R152). -/
def unsupported0FBlock : Action Unit := unsupportedBlock

/-- NOP (R140). -/
def execNop (s : State) : Host.Outcome State Fault Refusal := commit nopBlock s

/-- BREAKPOINT (R141). -/
def execBreakpoint (s : State) : Host.Outcome State Fault Refusal := commit breakpointBlock s

/-- The unsupported byte 0x01 (R152). -/
def execUnsupported01 (s : State) : Host.Outcome State Fault Refusal := commit unsupported01Block s

/-- The unsupported byte 0x03 (R152). -/
def execUnsupported03 (s : State) : Host.Outcome State Fault Refusal := commit unsupported03Block s

/-- The unsupported byte 0x0E (R152). -/
def execUnsupported0E (s : State) : Host.Outcome State Fault Refusal := commit unsupported0EBlock s

/-- The unsupported byte 0x0F (R152). -/
def execUnsupported0F (s : State) : Host.Outcome State Fault Refusal := commit unsupported0FBlock s

end Sys2Proof.Machine
end

