-- ==== Sys2Proof/Machine/StackOffset.lean ====
section
/-! DEFINITION. STORESP, LOADSP and ADDSP (41_sp_offset.md R100 to R103). -/

namespace Sys2Proof.Machine

/-- STORESP (R100): the popped word is stored at word offset `k` from `sp` as it was before the pop. -/
def storespBlock (k : Nat) : Action Unit := do
  let sp ← readSp
  let v ← pop
  memWriteWord (stackAddress sp k) v
  clearIdim
  advancePc

/-- LOADSP (R101): the word at word offset `k` from `sp` as it was before the push is pushed (D4, log 7). -/
def loadspBlock (k : Nat) : Action Unit := do
  let sp ← readSp
  let v ← memReadWord (stackAddress sp k)
  push v
  clearIdim
  advancePc

/-- ADDSP (R102): the word at word offset `g` from `sp` is added to the word on top of the stack, in place. -/
def addspBlock (g : Nat) : Action Unit := do
  let sp ← readSp
  let t ← top
  let u ← memReadWord (stackAddress sp g)
  setTop (t + u)
  clearIdim
  advancePc

/-- STORESP (R100). -/
def execStoresp (k : Nat) (s : State) : Host.Outcome State Fault Refusal := commit (storespBlock k) s

/-- LOADSP (R101). -/
def execLoadsp (k : Nat) (s : State) : Host.Outcome State Fault Refusal := commit (loadspBlock k) s

/-- ADDSP (R102). -/
def execAddsp (g : Nat) (s : State) : Host.Outcome State Fault Refusal := commit (addspBlock g) s

end Sys2Proof.Machine
end

