-- ==== Sys2Proof/Machine/StackPointer.lean ====
section
/-! DEFINITION. PUSHSP and POPSP (43_pushsp_popsp.md R120, R121). -/

namespace Sys2Proof.Machine

/-- PUSHSP (R120): pushes `sp` as it was before the push. -/
def pushspBlock : Action Unit := do
  let v ← readSp
  push v
  clearIdim
  advancePc

/-- POPSP (R121): the popped word replaces `sp`; the pop's own `+ 4` is overridden. -/
def popspBlock : Action Unit := do
  let t ← top
  writeSp t
  clearIdim
  advancePc

/-- PUSHSP (R120). -/
def execPushsp (s : State) : Host.Outcome State Fault Refusal := commit pushspBlock s

/-- POPSP (R121). -/
def execPopsp (s : State) : Host.Outcome State Fault Refusal := commit popspBlock s

end Sys2Proof.Machine
end

