-- ==== Sys2Proof/Syntax.lean ====
section
/-! DEFINITION. The instructions: one constructor per row of spec/opcode_table.json (30_encoding.md R72). -/

namespace Sys2Proof

/-- The 17 instruction forms and the four unsupported bytes of R72. An operand is what R81's syntax writes: the payload's
bits for IM, the word offset (after the XOR of R76) for STORESP and LOADSP, the word offset for ADDSP, the slot for
EMULATE (log 22). `Instr.WellFormed` bounds the offsets and the slot. -/
inductive Instr where
  /-- IM: payload `p` (R75, R90) -/
  | im (p : BitVec 7)
  /-- STORESP: word offset `k` = 0..31 (R76, R100) -/
  | storesp (k : Nat)
  /-- LOADSP: word offset `k` = 0..31 (R76, R101) -/
  | loadsp (k : Nat)
  /-- ADDSP: word offset `g` = 0..15 (R77, R102) -/
  | addsp (g : Nat)
  /-- EMULATE: slot `n` = 0..31 (R77, R150) -/
  | emulate (n : Nat)
  /-- POPPC (R110) -/
  | poppc
  /-- LOAD (R111) -/
  | load
  /-- STORE (R112) -/
  | store
  /-- PUSHSP (R120) -/
  | pushsp
  /-- POPSP (R121) -/
  | popsp
  /-- ADD (R130) -/
  | add
  /-- AND (R131) -/
  | and
  /-- OR (R132) -/
  | or
  /-- NOT (R133) -/
  | not
  /-- FLIP (R134) -/
  | flip
  /-- NOP (R140) -/
  | nop
  /-- BREAKPOINT (R141) -/
  | breakpoint
  /-- the unsupported byte 0x01 (R152) -/
  | unsupported01
  /-- the unsupported byte 0x03 (R152) -/
  | unsupported03
  /-- the unsupported byte 0x0E (R152) -/
  | unsupported0E
  /-- the unsupported byte 0x0F (R152) -/
  | unsupported0F
deriving DecidableEq, Repr

/-- The mnemonic of the instruction's row in spec/opcode_table.json (R72). -/
def Instr.mnemonic (i : Instr) : String :=
  match i with
  | .im _ => "IM"
  | .storesp _ => "STORESP"
  | .loadsp _ => "LOADSP"
  | .addsp _ => "ADDSP"
  | .emulate _ => "EMULATE"
  | .poppc => "POPPC"
  | .load => "LOAD"
  | .store => "STORE"
  | .pushsp => "PUSHSP"
  | .popsp => "POPSP"
  | .add => "ADD"
  | .and => "AND"
  | .or => "OR"
  | .not => "NOT"
  | .flip => "FLIP"
  | .nop => "NOP"
  | .breakpoint => "BREAKPOINT"
  | .unsupported01 => "UNSUPPORTED_01"
  | .unsupported03 => "UNSUPPORTED_03"
  | .unsupported0E => "UNSUPPORTED_0E"
  | .unsupported0F => "UNSUPPORTED_0F"

end Sys2Proof
end

