-- ==== Sys2Proof/Machine/Dispatch.lean ====
section
/-! DEFINITION. The meaning of each instruction, one arm a constructor. -/

namespace Sys2Proof.Machine

/-- What instruction `i` does from state `s` (30_encoding.md R71). -/
def exec (i : Instr) (s : State) : Host.Outcome State Fault Refusal :=
  match i with
  | .im p => Sys2Proof.Machine.execIm p s
  | .storesp k => Sys2Proof.Machine.execStoresp k s
  | .loadsp k => Sys2Proof.Machine.execLoadsp k s
  | .addsp g => Sys2Proof.Machine.execAddsp g s
  | .emulate n => Sys2Proof.Machine.execEmulate n s
  | .poppc => Sys2Proof.Machine.execPoppc s
  | .load => Sys2Proof.Machine.execLoad s
  | .store => Sys2Proof.Machine.execStore s
  | .pushsp => Sys2Proof.Machine.execPushsp s
  | .popsp => Sys2Proof.Machine.execPopsp s
  | .add => Sys2Proof.Machine.execAdd s
  | .and => Sys2Proof.Machine.execAnd s
  | .or => Sys2Proof.Machine.execOr s
  | .not => Sys2Proof.Machine.execNot s
  | .flip => Sys2Proof.Machine.execFlip s
  | .nop => Sys2Proof.Machine.execNop s
  | .breakpoint => Sys2Proof.Machine.execBreakpoint s
  | .unsupported01 => Sys2Proof.Machine.execUnsupported01 s
  | .unsupported03 => Sys2Proof.Machine.execUnsupported03 s
  | .unsupported0E => Sys2Proof.Machine.execUnsupported0E s
  | .unsupported0F => Sys2Proof.Machine.execUnsupported0F s

end Sys2Proof.Machine
end

