-- ==== Sys2Proof/WellFormed.lean ====
section
/-! DEFINITION. Which instruction terms stand for an encoding: the operand ranges of 30_encoding.md R76, R77 and R81. -/

namespace Sys2Proof

/-- The operand of `i` is in the range its encoding admits: a word offset 0..31 for STORESP and LOADSP (R76), 0..15 for
ADDSP and a slot 0..31 for EMULATE (R77). The payload of IM is 7 bits by its type (R75). -/
def Instr.wellFormed (i : Instr) : Bool :=
  match i with
  | .storesp k => decide (k < 32)
  | .loadsp k => decide (k < 32)
  | .addsp g => decide (g < 16)
  | .emulate n => decide (n < 32)
  | .im _ | .poppc | .load | .store | .pushsp | .popsp | .add | .and | .or | .not | .flip | .nop | .breakpoint
  | .unsupported01 | .unsupported03 | .unsupported0E | .unsupported0F => true

/-- `i` stands for an encoding. -/
abbrev Instr.WellFormed (i : Instr) : Prop := i.wellFormed = true

end Sys2Proof
end

