-- ==== Sys2Proof/Decode.lean ====
section
/-! DEFINITION. The decoder (30_encoding.md R70 to R79), the encoder (R73, R76, R77, R81) and the expansion of the
pseudo-instruction CONST (R82). -/

namespace Sys2Proof

/-- The word offset that the raw 5-bit field `f` of STORESP or LOADSP stands for: `f XOR 0x10`, unsigned (R76). -/
def offsetOfField (f : BitVec 5) : Nat := (f ^^^ 0x10#5).toNat

/-- The raw 5-bit field that encodes the word offset `k`: `k XOR 0x10` (R76). -/
def fieldOfOffset (k : Nat) : BitVec 5 := BitVec.ofNat 5 k ^^^ 0x10#5

/-- The instruction an opcode byte stands for, by the tests of R71 in R71's order; by R74 the order cannot be observed.
Every byte value is classified (R72, R78). -/
def decodeByte (op : Byte) : Instr :=
  if op &&& 0x80#8 ≠ 0#8 then .im (op.extractLsb' 0 7)
  else if op &&& 0xE0#8 = 0x40#8 then .storesp (offsetOfField (op.extractLsb' 0 5))
  else if op &&& 0xE0#8 = 0x60#8 then .loadsp (offsetOfField (op.extractLsb' 0 5))
  else if op &&& 0xF0#8 = 0x10#8 then .addsp (op.extractLsb' 0 4).toNat
  else if op &&& 0xE0#8 = 0x20#8 then .emulate (op.extractLsb' 0 5).toNat
  else if op = 0x04#8 then .poppc
  else if op = 0x08#8 then .load
  else if op = 0x0C#8 then .store
  else if op = 0x02#8 then .pushsp
  else if op = 0x0D#8 then .popsp
  else if op = 0x05#8 then .add
  else if op = 0x06#8 then .and
  else if op = 0x07#8 then .or
  else if op = 0x09#8 then .not
  else if op = 0x0A#8 then .flip
  else if op = 0x0B#8 then .nop
  else if op = 0x00#8 then .breakpoint
  else if op = 0x01#8 then .unsupported01
  else if op = 0x03#8 then .unsupported03
  else if op = 0x0E#8 then .unsupported0E
  else .unsupported0F

/-- Why the decoder reads no instruction. -/
inductive DecodeError where
  /-- there is no byte to read -/
  | noByte
deriving DecidableEq, Repr

/-- Reads one instruction, which is exactly one byte (R70), from the front of `bytes` and gives the bytes after it. Total:
no byte value is rejected (R78). -/
def decode (bytes : List Byte) : Except DecodeError (Instr × List Byte) :=
  match bytes with
  | [] => .error .noByte
  | op :: rest => .ok (decodeByte op, rest)

/-- The byte of an instruction (R72, R73, R76, R77, R81). An operand out of range is cut to its field. -/
def encodeByte (i : Instr) : Byte :=
  match i with
  | .im p => 0b1#1 ++ p
  | .storesp k => 0b010#3 ++ fieldOfOffset k
  | .loadsp k => 0b011#3 ++ fieldOfOffset k
  | .addsp g => 0b0001#4 ++ BitVec.ofNat 4 g
  | .emulate n => 0b001#3 ++ BitVec.ofNat 5 n
  | .poppc => 0x04#8
  | .load => 0x08#8
  | .store => 0x0C#8
  | .pushsp => 0x02#8
  | .popsp => 0x0D#8
  | .add => 0x05#8
  | .and => 0x06#8
  | .or => 0x07#8
  | .not => 0x09#8
  | .flip => 0x0A#8
  | .nop => 0x0B#8
  | .breakpoint => 0x00#8
  | .unsupported01 => 0x01#8
  | .unsupported03 => 0x03#8
  | .unsupported0E => 0x0E#8
  | .unsupported0F => 0x0F#8

/-- The bytes of an instruction in the order they lie in memory: one (R70). -/
def encode (i : Instr) : List Byte := [encodeByte i]

/-- The bytes of a row of spec/opcode_table.json as the hardware stores them: the first byte is bits 7..0 of `w`, the next
bits 15..8, and so on. -/
def layOut (nbits w : Nat) : List Byte :=
  (List.range (nbits / 8)).map fun k => BitVec.ofNat 8 (w >>> (8 * k))

/-- The instruction the decoder reads from a table row's `nbits` bits `w`; `none` where they are not exactly one
instruction (every row of this table is 8 bits). -/
def decodeTableWord (nbits w : Nat) : Option Instr :=
  match decode (layOut nbits w) with
  | .ok (i, []) => some i
  | .ok (_, _ :: _) => none
  | .error _ => none

/-- One row of R72's list: the mnemonic as spec/opcode_table.json has it, and the mask and match value that select the
row's bytes: `op & mask = match`. -/
structure OpcodeRow where
  /-- the row's mnemonic -/
  mnemonic : String
  /-- the bits that the row fixes -/
  mask : Byte
  /-- the values of those bits -/
  fixedBits : Byte
deriving DecidableEq, Repr

/-- The 21 rows of R72 and spec/opcode_table.json. -/
def opcodeRows : List OpcodeRow :=
  [⟨"IM", 0x80#8, 0x80#8⟩, ⟨"STORESP", 0xE0#8, 0x40#8⟩, ⟨"LOADSP", 0xE0#8, 0x60#8⟩, ⟨"ADDSP", 0xF0#8, 0x10#8⟩,
   ⟨"EMULATE", 0xE0#8, 0x20#8⟩, ⟨"POPPC", 0xFF#8, 0x04#8⟩, ⟨"LOAD", 0xFF#8, 0x08#8⟩, ⟨"STORE", 0xFF#8, 0x0C#8⟩,
   ⟨"PUSHSP", 0xFF#8, 0x02#8⟩, ⟨"POPSP", 0xFF#8, 0x0D#8⟩, ⟨"ADD", 0xFF#8, 0x05#8⟩, ⟨"AND", 0xFF#8, 0x06#8⟩,
   ⟨"OR", 0xFF#8, 0x07#8⟩, ⟨"NOT", 0xFF#8, 0x09#8⟩, ⟨"FLIP", 0xFF#8, 0x0A#8⟩, ⟨"NOP", 0xFF#8, 0x0B#8⟩,
   ⟨"BREAKPOINT", 0xFF#8, 0x00#8⟩, ⟨"UNSUPPORTED_01", 0xFF#8, 0x01#8⟩, ⟨"UNSUPPORTED_03", 0xFF#8, 0x03#8⟩,
   ⟨"UNSUPPORTED_0E", 0xFF#8, 0x0E#8⟩, ⟨"UNSUPPORTED_0F", 0xFF#8, 0x0F#8⟩]

/-- The row selects the byte (R72). -/
def OpcodeRow.selects (row : OpcodeRow) (op : Byte) : Bool := op &&& row.mask = row.fixedBits

/-- `w`, read as signed, is in `-2^(7k-1) .. 2^(7k-1) - 1`: `k` IM bytes give it (R82). -/
abbrev fitsPayloads (w : Word) (k : Nat) : Prop := -(2 ^ (7 * k - 1) : Int) ≤ w.toInt ∧ w.toInt < 2 ^ (7 * k - 1)

/-- How many IM bytes CONST takes for `w`: the least of 1..5 that fits, 5 if none smaller does (R82). -/
def constLength (w : Word) : Nat :=
  if fitsPayloads w 1 then 1
  else if fitsPayloads w 2 then 2
  else if fitsPayloads w 3 then 3
  else if fitsPayloads w 4 then 4
  else 5

/-- The payloads of CONST `w`, most significant chunk first: `(w >> 7(k-1-j)) & 0x7F`, the shift arithmetic (R82). -/
def constPayloads (w : Word) : List (BitVec 7) :=
  (List.range (constLength w)).map fun j => (w.sshiftRight (7 * (constLength w - 1 - j))).extractLsb' 0 7

/-- The bytes that CONST `w` stands for (R82). -/
def constBytes (w : Word) : List Byte := (constPayloads w).map fun p => encodeByte (.im p)

end Sys2Proof
end

