-- ==== Sys2Proof/Machine/Fetch.lean ====
section
/-! DEFINITION. The opcode fetch (30_encoding.md R71, 20_memory.md R44, R49, R61). -/

namespace Sys2Proof.Machine

/-- The opcode byte at `pc`; 0x00 if `pc` is unmapped (R44). -/
def State.fetchByte (s : State) : Byte := s.readByte s.pc

/-- The instruction that the byte at `pc` stands for (R71). -/
def State.fetchInstr (s : State) : Instr := decodeByte s.fetchByte

/-- `op = MemRead(pc, 1)`, with what it reports (R71, R164). -/
def fetchOpcode : Action Byte := do
  let pc ← readPc
  memReadByte pc

/-- `s` with byte `b` where the next step fetches (log 21): stored at `pc` where `pc` is mapped; where it is
not, a one-byte region at `pc` that holds `b` is added after the others. -/
def State.withFetchByte (s : State) (b : Byte) : State :=
  match s.translate s.pc with
  | some (i, off) => s.withRegions (setStorageByte s.regions i off b)
  | none => s.withRegions (s.regions ++ [{ base := s.pc, size := 1#32, storage := Memory.write [] 0 b }])

end Sys2Proof.Machine
end

