-- ==== Sys2Proof/Machine/Step.lean ====
section
/-! DEFINITION. One step (30_encoding.md R71), and where a test puts an instruction so that the next step runs it. -/

namespace Sys2Proof.Machine

/-- One `step` transaction's effect on the state: fetch the opcode byte at `pc`, decode it, execute it (R71). The
instruction's own rule includes its `pc` update. The step's status output is `stepStatus` (Status.lean). -/
def step (s : State) : Host.Outcome State Fault Refusal := exec s.fetchInstr s

/-- `s` with the instruction whose bits are `w` where `step` fetches its next instruction. An instruction is its first
byte (R70); `nbits` is 8 for every row of the table, and a shorter `nbits` means that the bits above it are 0. -/
def State.withFetchWord (s : State) (nbits w : Nat) : State := s.withFetchByte (BitVec.ofNat 8 (w % 2 ^ nbits))

end Sys2Proof.Machine
end

