-- ==== Sys2Proof/Machine/Inspect.lean ====
section
/-! DEFINITION. The inspection interface (00_scope.md R9): what the driver may read between steps. It changes no state;
`pc` and `sp` are read from the state itself and `flags` is `State.flags`. -/

namespace Sys2Proof.Machine

/-- The byte at `a` as the driver reads it (R9, R44). -/
def State.inspectByte (s : State) (a : Word) : Byte := s.readByte a

/-- The word at `a` as the driver reads it (R9, R45); `none` where the access has no defined result (R48). -/
def State.inspectWord (s : State) (a : Word) : Option Word :=
  if s.wordDefined a then some (s.readWord a) else none

end Sys2Proof.Machine
end

