-- ==== Sys2Proof/Machine/Status.lean ====
section
/-! DEFINITION. The status output of a step (00_scope.md R8, 60_exceptions.md R162 to R164). The status is not state
(R164): these functions give what `step` returns beside the next state (log 12). -/

namespace Sys2Proof.Machine

/-- The pseudocode block of each instruction, whose effect on the state `exec` takes (`exec_eq_commit`, Laws/Blocks.lean)
and whose reports the status takes. -/
def blockOf (i : Instr) : Action Unit :=
  match i with
  | .im p => imBlock p
  | .storesp k => storespBlock k
  | .loadsp k => loadspBlock k
  | .addsp g => addspBlock g
  | .emulate n => emulateBlock n
  | .poppc => poppcBlock
  | .load => loadBlock
  | .store => storeBlock
  | .pushsp => pushspBlock
  | .popsp => popspBlock
  | .add => addBlock
  | .and => andBlock
  | .or => orBlock
  | .not => notBlock
  | .flip => flipBlock
  | .nop => nopBlock
  | .breakpoint => breakpointBlock
  | .unsupported01 => unsupported01Block
  | .unsupported03 => unsupported03Block
  | .unsupported0E => unsupported0EBlock
  | .unsupported0F => unsupported0FBlock

/-- The conditions that instruction `i` itself reports from `s`, its fetch left out, or its refusal. -/
def execReport (i : Instr) (s : State) : Except Refusal Report := reportOf (blockOf i) s

/-- The whole `step` transaction: the fetch, then the decoded instruction's block (R71). -/
def stepBlock : Action Unit := do
  let op ← fetchOpcode
  blockOf (decodeByte op)

/-- The set of conditions that the step from `s` reports (R164), or its refusal: a refused step gives no status. -/
def stepReport (s : State) : Except Refusal Report := reportOf stepBlock s

/-- The 3-bit code of a set: bit 0 UnmappedAddress, bit 1 MisalignedAccess, bit 2 UnknownOpcode; "ok" is 000 (R164). -/
def Report.encode (r : Report) : BitVec 3 :=
  BitVec.ofBool r.unknownOpcode ++ BitVec.ofBool r.misalignedAccess ++ BitVec.ofBool r.unmappedAddress

/-- The status output for a set (R164): "ok" whatever the set holds if STRICT = false, else the set. -/
def statusOutput (strict : Bool) (r : Report) : BitVec 3 := if strict then r.encode else 0b000#3

/-- The status that `step` returns from `s` (R8, R162, R164), or its refusal. -/
def stepStatus (s : State) : Except Refusal (BitVec 3) :=
  match stepReport s with
  | .ok r => .ok (statusOutput s.cfg.strict r)
  | .error e => .error e

end Sys2Proof.Machine
end

