-- ==== Sys2Proof/Safety.lean ====
section
/-! DEFINITION. The terms in which claims speak of the machine: what a step accesses and stores to, what a safe step is,
the invariant of memory, the platform discipline of 70_reset_and_hazards.md R194 and R195, runs of instructions, and two
machines that differ in BYTE_ORDER only. -/

namespace Sys2Proof.Machine

/-! ### What a step accesses (10_state.md R32) -/

/-- The addresses of the word accesses of instruction `i` from `s`, in the order it makes them, reads before the write
(R32, R58), in terms of `sp` and memory at the start of the step. -/
def wordAccesses (i : Instr) (s : State) : List Word :=
  match i with
  | .im _ => if s.idim then [s.sp, s.sp] else [s.sp - 4#32]
  | .storesp k => [s.sp, stackAddress s.sp k]
  | .loadsp k => [stackAddress s.sp k, s.sp - 4#32]
  | .addsp g => [s.sp, stackAddress s.sp g, s.sp]
  | .emulate _ => [s.sp - 4#32]
  | .poppc => [s.sp]
  | .load => [s.sp, s.readWord s.sp, s.sp]
  | .store => [s.sp, s.sp + 4#32, s.readWord s.sp]
  | .pushsp => [s.sp - 4#32]
  | .popsp => [s.sp]
  | .add => [s.sp, s.sp + 4#32, s.sp + 4#32]
  | .and => [s.sp, s.sp + 4#32, s.sp + 4#32]
  | .or => [s.sp, s.sp + 4#32, s.sp + 4#32]
  | .not => [s.sp, s.sp]
  | .flip => [s.sp, s.sp]
  | .nop => []
  | .breakpoint => []
  | .unsupported01 => []
  | .unsupported03 => []
  | .unsupported0E => []
  | .unsupported0F => []

/-- The address of the word that instruction `i` writes from `s` (R32): at most one word a step (R58). -/
def storedAddress (i : Instr) (s : State) : Option Word :=
  match i with
  | .im _ => if s.idim then some s.sp else some (s.sp - 4#32)
  | .storesp k => some (stackAddress s.sp k)
  | .loadsp _ => some (s.sp - 4#32)
  | .addsp _ => some s.sp
  | .emulate _ => some (s.sp - 4#32)
  | .load => some s.sp
  | .store => some (s.readWord s.sp)
  | .pushsp => some (s.sp - 4#32)
  | .add => some (s.sp + 4#32)
  | .and => some (s.sp + 4#32)
  | .or => some (s.sp + 4#32)
  | .not => some s.sp
  | .flip => some s.sp
  | .poppc => none
  | .popsp => none
  | .nop => none
  | .breakpoint => none
  | .unsupported01 => none
  | .unsupported03 => none
  | .unsupported0E => none
  | .unsupported0F => none

/-- `b` is one of the four addresses `a`, `a + 1`, `a + 2`, `a + 3` of the word at `a`. -/
abbrev inWordAt (a b : Word) : Prop := a.toNat ≤ b.toNat ∧ b.toNat < a.toNat + 4

/-- `(j, k)` names one of the four storage bytes of the mapped word at `a`. -/
abbrev inStoredWord (s : State) (a : Word) (j k : Nat) : Prop :=
  ∃ off, s.translate a = some (j, off) ∧ off ≤ k ∧ k < off + 4

/-- Every word access of the step is unmapped or contained (R48). -/
abbrev accessesDefined (i : Instr) (s : State) : Prop := ∀ a ∈ wordAccesses i s, s.wordDefined a = true

/-- The step from `s` is safe: it has a next state. The only steps that have none are those R48 refuses. -/
abbrev safeStep (s : State) : Prop := accessesDefined s.fetchInstr s

/-! ### The invariant of memory and the region table -/

/-- The bases and sizes of a region table, in order: what never changes after construction (20_memory.md R41). -/
def geometry (regions : List Region) : List (Word × Word) := regions.map fun r => (r.base, r.size)

/-- A region's storage is in canonical form and lists no byte at or above its size (R41, log 2). -/
abbrev Region.wf (r : Region) : Prop := r.storage.wf ∧ ∀ c ∈ r.storage, c.1 < r.size.toNat

/-- Every region's storage is well formed. -/
abbrev State.memoryWf (s : State) : Prop := ∀ r ∈ s.regions, r.wf

/-! ### The platform discipline -/

/-- Every region's base and size are multiples of 4 (R194). -/
abbrev State.alignedPlatform (s : State) : Prop :=
  ∀ r ∈ s.regions, wordAligned r.base = true ∧ wordAligned r.size = true

/-- No address is in two regions (R195). -/
def State.disjointRegions (s : State) : Prop :=
  ∀ (i j : Nat) (r q : Region) (a : Word), s.regions[i]? = some r → s.regions[j]? = some q →
    r.matchesAddress a = true → q.matchesAddress a = true → i = j

/-! ### Runs -/

/-- The instructions executed one after another, each by `exec`, whatever lies at `pc`; the run stops at the first
refusal. -/
def execRun (is : List Instr) (s : State) : Host.Outcome State Fault Refusal :=
  match is with
  | [] => .next s
  | i :: rest =>
    match exec i s with
    | .next t => execRun rest t
    | .fault f => .fault f
    | .refused r => .refused r

/-- `n` steps (00_scope.md R12: "the state after n steps"). -/
def stepRun (n : Nat) (s : State) : Host.Outcome State Fault Refusal :=
  match n with
  | 0 => .next s
  | n + 1 =>
    match step s with
    | .next t => stepRun n t
    | .fault f => .fault f
    | .refused r => .refused r

/-- The zero-extended part `(p2 << 7(k-2)) | ... | pk` of the word that a run of IM payloads builds (30_encoding.md R75,
40_im.md R91). -/
def imTail (ps : List (BitVec 7)) : Word :=
  match ps with
  | [] => 0x00000000#32
  | p :: rest => (p.setWidth 32 <<< (7 * rest.length)) ||| imTail rest

/-- The word that a run of IM payloads `p, ps` builds from `idim` = 0: `(sext_7(p1) << 7(k-1)) | (p2 << 7(k-2)) | ... | pk`,
truncated to 32 bits (R75, R91). -/
def imRunWord (p : BitVec 7) (ps : List (BitVec 7)) : Word := (imStart p <<< (7 * ps.length)) ||| imTail ps

/-- The instructions that clear `idim`: R24's second row, all but IM, BREAKPOINT and the unsupported bytes. -/
def clearsIdim (i : Instr) : Bool :=
  match i with
  | .storesp _ | .loadsp _ | .addsp _ | .emulate _ | .poppc | .load | .store | .pushsp | .popsp | .add | .and | .or | .not
  | .flip | .nop => true
  | .im _ | .breakpoint | .unsupported01 | .unsupported03 | .unsupported0E | .unsupported0F => false

/-- The instructions that neither set nor clear `idim`: R24's last two rows. -/
def keepsIdim (i : Instr) : Bool :=
  match i with
  | .breakpoint | .unsupported01 | .unsupported03 | .unsupported0E | .unsupported0F => true
  | .im _ | .storesp _ | .loadsp _ | .addsp _ | .emulate _ | .poppc | .load | .store | .pushsp | .popsp | .add | .and | .or
  | .not | .flip | .nop => false

/-! ### Two machines that differ in BYTE_ORDER only -/

/-- The offset of the byte that takes the place of byte `off` when the four bytes of its aligned word are reversed. -/
def mirrorOffset (off : Nat) : Nat := 4 * (off / 4) + (3 - off % 4)

/-- `t` is `s` with the other BYTE_ORDER and with the bytes of every aligned word of storage reversed, so that every
aligned word holds the same value in both (20_memory.md R47). -/
structure mirrored (s t : State) : Prop where
  /-- the configurations differ in BYTE_ORDER only -/
  cfg : t.cfg = { s.cfg with byteOrder := s.cfg.byteOrder.other }
  /-- the region tables have the same bases and sizes -/
  geometry : geometry t.regions = geometry s.regions
  /-- the storage bytes are those of `s`, reversed within each aligned word -/
  bytes : ∀ i off, storageByte t.regions i off = storageByte s.regions i (mirrorOffset off)
  /-- the registers are equal -/
  pc : t.pc = s.pc
  /-- the registers are equal -/
  sp : t.sp = s.sp
  /-- the flag is equal -/
  idim : t.idim = s.idim

end Sys2Proof.Machine
end

