-- ==== Sys2Proof/Certificates/Slice0/Obligations.lean ====
section
/-! DEFINITION. The statements for the provers. A statement says "the machine at `s`" for every state `s`, so for every
configuration and every region table; `wordDefined` is the condition under which R48 gives a word access a result. -/

open Sys2Proof Sys2Proof.Machine

/-! ### Encoding -/

/-- A few bytes, written out from the formats of R73, decode to the instructions R79's map gives them. -/
def Obligations.SampleBytesDecodeAsTheOpcodeMapSays : Prop :=
  decodeByte 0b10000101#8 = .im 0b0000101#7 ∧ decodeByte 0b01010010#8 = .storesp 2 ∧
  decodeByte 0b01000000#8 = .storesp 16 ∧ decodeByte 0b01110001#8 = .loadsp 1 ∧
  decodeByte 0b01101111#8 = .loadsp 31 ∧ decodeByte 0b00011111#8 = .addsp 15 ∧
  decodeByte 0b00100010#8 = .emulate 2 ∧ decodeByte 0b00000100#8 = .poppc ∧ decodeByte 0b00001000#8 = .load ∧
  decodeByte 0b00001101#8 = .popsp ∧ decodeByte 0b00001010#8 = .flip ∧ decodeByte 0b00000000#8 = .breakpoint ∧
  decodeByte 0b00001110#8 = .unsupported0E

/-- R72, R74: the 21 rows partition the 256 byte values, and a byte decodes to the row that selects it. -/
def Obligations.OpcodeRowsPartitionTheBytes : Prop :=
  ∀ op : Byte,
    opcodeRows.filter (fun row => row.selects op) =
      (opcodeRows.filter fun row => row.mnemonic = (decodeByte op).mnemonic) ∧
    (opcodeRows.filter fun row => row.selects op).length = 1

/-- R72, R73, R76, R77: decoding the bytes of a well-formed instruction gives it back and consumes exactly them. -/
def Obligations.DecodeInvertsEncode : Prop :=
  ∀ (i : Instr) (rest : List Byte), i.WellFormed → decode (encode i ++ rest) = .ok (i, rest)

/-- R72, R78: every byte decodes to a well-formed instruction whose byte it is, so no encoding is rejected. -/
def Obligations.EncodeInvertsDecode : Prop :=
  ∀ op : Byte, (decodeByte op).WellFormed ∧ encodeByte (decodeByte op) = op

/-! ### The step -/

/-- R71: where the byte at `pc` decodes to a well-formed instruction, the step is that instruction; and it always does. -/
def Obligations.StepRunsTheDecodedInstruction : Prop :=
  (∀ (s : State) (i : Instr), decode [s.readByte s.pc] = .ok (i, []) → i.WellFormed → step s = exec i s) ∧
  ∀ s : State, ∃ i : Instr, decode [s.readByte s.pc] = .ok (i, []) ∧ i.WellFormed

/-- R71, R164: the set a step reports is what the fetch reports and what the instruction reports. The second clause is the
model's choice (log 12), drawn from R167's "not at all": a refused instruction gives no status. -/
def Obligations.StepReportsFetchAndInstruction : Prop :=
  ∀ s : State,
    (∀ r, execReport s.fetchInstr s = .ok r → stepReport s = .ok ((s.byteReport s.pc).union r)) ∧
    (∀ e, execReport s.fetchInstr s = .error e → stepReport s = .error e)

/-! ### One rule an instruction: its bytes, its effect, what it reports -/

/-- R90: IM. -/
def Obligations.ImPushesOrExtends : Prop :=
  (∀ op : Byte, op &&& 0x80#8 = 0x80#8 → decodeByte op = .im (op.extractLsb' 0 7)) ∧
  ∀ (s : State) (p : BitVec 7),
    (s.idim = false → s.wordDefined (s.sp - 4#32) = true →
      exec (.im p) s = .next { s.writeWord (s.sp - 4#32) (p.signExtend 32) with
        pc := s.pc + 1#32, sp := s.sp - 4#32, idim := true } ∧
      execReport (.im p) s = .ok { unmappedAddress := !s.mapped (s.sp - 4#32),
                                   misalignedAccess := s.cfg.alignCheck && !wordAligned (s.sp - 4#32) }) ∧
    (s.idim = true → s.wordDefined s.sp = true →
      exec (.im p) s = .next { s.writeWord s.sp ((s.readWord s.sp <<< 7) ||| p.setWidth 32) with
        pc := s.pc + 1#32, idim := true } ∧
      execReport (.im p) s = .ok { unmappedAddress := !s.mapped s.sp,
                                   misalignedAccess := s.cfg.alignCheck && !wordAligned s.sp }) ∧
    (s.fetchInstr = .im p → s.mapped s.pc = true)

/-- R100: STORESP. -/
def Obligations.StorespStoresThePoppedWord : Prop :=
  (∀ op : Byte, op &&& 0xE0#8 = 0x40#8 → decodeByte op = .storesp (op.extractLsb' 0 5 ^^^ 0x10#5).toNat) ∧
  (∀ k < 32, encodeByte (.storesp k) = 0x40#8 ||| (BitVec.ofNat 8 k ^^^ 0x10#8)) ∧
  ∀ (s : State) (k : Nat), s.wordDefined s.sp = true → s.wordDefined (s.sp + BitVec.ofNat 32 (4 * k)) = true →
    exec (.storesp k) s = .next { s.writeWord (s.sp + BitVec.ofNat 32 (4 * k)) (s.readWord s.sp) with
      pc := s.pc + 1#32, sp := s.sp + 4#32, idim := false } ∧
    execReport (.storesp k) s = .ok
      { unmappedAddress := !s.mapped s.sp || !s.mapped (s.sp + BitVec.ofNat 32 (4 * k)),
        misalignedAccess := s.cfg.alignCheck && !wordAligned s.sp }

/-- LOADSP (R101). That the address is based on `sp` as it is before the push is the spec's own decision D4, not its
source's word (log 7). -/
def Obligations.LoadspPushesTheOffsetWord : Prop :=
  (∀ op : Byte, op &&& 0xE0#8 = 0x60#8 → decodeByte op = .loadsp (op.extractLsb' 0 5 ^^^ 0x10#5).toNat) ∧
  (∀ k < 32, encodeByte (.loadsp k) = 0x60#8 ||| (BitVec.ofNat 8 k ^^^ 0x10#8)) ∧
  ∀ (s : State) (k : Nat), s.wordDefined (s.sp + BitVec.ofNat 32 (4 * k)) = true →
    s.wordDefined (s.sp - 4#32) = true →
    exec (.loadsp k) s = .next { s.writeWord (s.sp - 4#32) (s.readWord (s.sp + BitVec.ofNat 32 (4 * k))) with
      pc := s.pc + 1#32, sp := s.sp - 4#32, idim := false } ∧
    execReport (.loadsp k) s = .ok
      { unmappedAddress := !s.mapped (s.sp + BitVec.ofNat 32 (4 * k)) || !s.mapped (s.sp - 4#32),
        misalignedAccess := s.cfg.alignCheck && !wordAligned s.sp }

/-- R102: ADDSP. -/
def Obligations.AddspAddsTheOffsetWord : Prop :=
  (∀ op : Byte, op &&& 0xF0#8 = 0x10#8 → decodeByte op = .addsp (op.extractLsb' 0 4).toNat) ∧
  (∀ g < 16, encodeByte (.addsp g) = 0x10#8 ||| BitVec.ofNat 8 g) ∧
  ∀ (s : State) (g : Nat), s.wordDefined s.sp = true → s.wordDefined (s.sp + BitVec.ofNat 32 (4 * g)) = true →
    exec (.addsp g) s = .next
      { s.writeWord s.sp (s.readWord s.sp + s.readWord (s.sp + BitVec.ofNat 32 (4 * g))) with
        pc := s.pc + 1#32, idim := false } ∧
    execReport (.addsp g) s = .ok
      { unmappedAddress := !s.mapped s.sp || !s.mapped (s.sp + BitVec.ofNat 32 (4 * g)),
        misalignedAccess := s.cfg.alignCheck && !wordAligned s.sp }

/-- R150: EMULATE. -/
def Obligations.EmulateCallsItsSlot : Prop :=
  (∀ op : Byte, op &&& 0xE0#8 = 0x20#8 → decodeByte op = .emulate (op.extractLsb' 0 5).toNat) ∧
  (∀ n < 32, encodeByte (.emulate n) = 0x20#8 ||| BitVec.ofNat 8 n) ∧
  ∀ (s : State) (n : Nat), s.wordDefined (s.sp - 4#32) = true →
    exec (.emulate n) s = .next { s.writeWord (s.sp - 4#32) (s.pc + 1#32) with
      pc := BitVec.ofNat 32 (n * 32), sp := s.sp - 4#32, idim := false } ∧
    execReport (.emulate n) s = .ok { unmappedAddress := !s.mapped (s.sp - 4#32),
                                      misalignedAccess := s.cfg.alignCheck && !wordAligned s.sp }

/-- R110: POPPC. -/
def Obligations.PoppcJumpsToThePoppedWord : Prop :=
  (∀ op : Byte, decodeByte op = .poppc ↔ op = 0x04#8) ∧
  ∀ s : State, s.wordDefined s.sp = true →
    exec .poppc s = .next { s with pc := s.readWord s.sp, sp := s.sp + 4#32, idim := false } ∧
    execReport .poppc s = .ok { unmappedAddress := !s.mapped s.sp,
                                misalignedAccess := s.cfg.alignCheck && !wordAligned s.sp }

/-- R111: LOAD. -/
def Obligations.LoadReplacesTheAddressByItsWord : Prop :=
  (∀ op : Byte, decodeByte op = .load ↔ op = 0x08#8) ∧
  ∀ s : State, s.wordDefined s.sp = true → s.wordDefined (s.readWord s.sp) = true →
    exec .load s = .next { s.writeWord s.sp (s.readWord (s.readWord s.sp)) with pc := s.pc + 1#32, idim := false } ∧
    execReport .load s = .ok
      { unmappedAddress := !s.mapped s.sp || !s.mapped (s.readWord s.sp),
        misalignedAccess := s.cfg.alignCheck && (!wordAligned s.sp || !wordAligned (s.readWord s.sp)) }

/-- R112: STORE. -/
def Obligations.StoreWritesTheSecondWordAtTheFirst : Prop :=
  (∀ op : Byte, decodeByte op = .store ↔ op = 0x0C#8) ∧
  ∀ s : State, s.wordDefined s.sp = true → s.wordDefined (s.sp + 4#32) = true →
    s.wordDefined (s.readWord s.sp) = true →
    exec .store s = .next { s.writeWord (s.readWord s.sp) (s.readWord (s.sp + 4#32)) with
      pc := s.pc + 1#32, sp := s.sp + 8#32, idim := false } ∧
    execReport .store s = .ok
      { unmappedAddress := !s.mapped s.sp || !s.mapped (s.sp + 4#32) || !s.mapped (s.readWord s.sp),
        misalignedAccess := s.cfg.alignCheck && (!wordAligned s.sp || !wordAligned (s.readWord s.sp)) }

/-- R120: PUSHSP. -/
def Obligations.PushspPushesTheOldSp : Prop :=
  (∀ op : Byte, decodeByte op = .pushsp ↔ op = 0x02#8) ∧
  ∀ s : State, s.wordDefined (s.sp - 4#32) = true →
    exec .pushsp s = .next { s.writeWord (s.sp - 4#32) s.sp with
      pc := s.pc + 1#32, sp := s.sp - 4#32, idim := false } ∧
    execReport .pushsp s = .ok { unmappedAddress := !s.mapped (s.sp - 4#32),
                                 misalignedAccess := s.cfg.alignCheck && !wordAligned s.sp }

/-- R121: POPSP. -/
def Obligations.PopspReplacesSpByTheTopWord : Prop :=
  (∀ op : Byte, decodeByte op = .popsp ↔ op = 0x0D#8) ∧
  ∀ s : State, s.wordDefined s.sp = true →
    exec .popsp s = .next { s with pc := s.pc + 1#32, sp := s.readWord s.sp, idim := false } ∧
    execReport .popsp s = .ok { unmappedAddress := !s.mapped s.sp,
                                misalignedAccess := s.cfg.alignCheck && !wordAligned s.sp }

/-- R130: ADD. -/
def Obligations.AddReplacesTheTopTwoWordsByTheirSum : Prop :=
  (∀ op : Byte, decodeByte op = .add ↔ op = 0x05#8) ∧
  ∀ s : State, s.wordDefined s.sp = true → s.wordDefined (s.sp + 4#32) = true →
    exec .add s = .next { s.writeWord (s.sp + 4#32) (s.readWord s.sp + s.readWord (s.sp + 4#32)) with
      pc := s.pc + 1#32, sp := s.sp + 4#32, idim := false } ∧
    execReport .add s = .ok { unmappedAddress := !s.mapped s.sp || !s.mapped (s.sp + 4#32),
                              misalignedAccess := s.cfg.alignCheck && !wordAligned s.sp }

/-- R131: AND. -/
def Obligations.AndReplacesTheTopTwoWordsByTheirConjunction : Prop :=
  (∀ op : Byte, decodeByte op = .and ↔ op = 0x06#8) ∧
  ∀ s : State, s.wordDefined s.sp = true → s.wordDefined (s.sp + 4#32) = true →
    exec .and s = .next { s.writeWord (s.sp + 4#32) (s.readWord s.sp &&& s.readWord (s.sp + 4#32)) with
      pc := s.pc + 1#32, sp := s.sp + 4#32, idim := false } ∧
    execReport .and s = .ok { unmappedAddress := !s.mapped s.sp || !s.mapped (s.sp + 4#32),
                              misalignedAccess := s.cfg.alignCheck && !wordAligned s.sp }

/-- R132: OR. -/
def Obligations.OrReplacesTheTopTwoWordsByTheirDisjunction : Prop :=
  (∀ op : Byte, decodeByte op = .or ↔ op = 0x07#8) ∧
  ∀ s : State, s.wordDefined s.sp = true → s.wordDefined (s.sp + 4#32) = true →
    exec .or s = .next { s.writeWord (s.sp + 4#32) (s.readWord s.sp ||| s.readWord (s.sp + 4#32)) with
      pc := s.pc + 1#32, sp := s.sp + 4#32, idim := false } ∧
    execReport .or s = .ok { unmappedAddress := !s.mapped s.sp || !s.mapped (s.sp + 4#32),
                             misalignedAccess := s.cfg.alignCheck && !wordAligned s.sp }

/-- R133: NOT. -/
def Obligations.NotInvertsTheTopWord : Prop :=
  (∀ op : Byte, decodeByte op = .not ↔ op = 0x09#8) ∧
  ∀ s : State, s.wordDefined s.sp = true →
    exec .not s = .next { s.writeWord s.sp (~~~s.readWord s.sp) with pc := s.pc + 1#32, idim := false } ∧
    execReport .not s = .ok { unmappedAddress := !s.mapped s.sp,
                              misalignedAccess := s.cfg.alignCheck && !wordAligned s.sp }

/-- R134: FLIP writes the word whose bit `31 - i` is bit `i` of the top word, and that reversal is an involution. -/
def Obligations.FlipReversesTheTopWord : Prop :=
  (∀ op : Byte, decodeByte op = .flip ↔ op = 0x0A#8) ∧
  (∀ s : State, s.wordDefined s.sp = true → ∃ r : Word,
    (∀ i < 32, r.getLsbD (31 - i) = (s.readWord s.sp).getLsbD i) ∧
    exec .flip s = .next { s.writeWord s.sp r with pc := s.pc + 1#32, idim := false } ∧
    execReport .flip s = .ok { unmappedAddress := !s.mapped s.sp,
                               misalignedAccess := s.cfg.alignCheck && !wordAligned s.sp }) ∧
  ∀ v : Word, flipBits (flipBits v) = v

/-- R140: NOP. The fetch of a NOP reports nothing. -/
def Obligations.NopClearsIdim : Prop :=
  (∀ op : Byte, decodeByte op = .nop ↔ op = 0x0B#8) ∧
  ∀ s : State,
    exec .nop s = .next { s with pc := s.pc + 1#32, idim := false } ∧
    (s.fetchByte = 0x0B#8 → stepReport s = .ok {})

/-- BREAKPOINT (R141), which is also what an unmapped fetch decodes to; such a step reports exactly the unmapped fetch.
That it keeps `idim` is the spec's own decision D19 on its conflict C2, where its source has another reading (log 15). -/
def Obligations.BreakpointOnlyAdvancesPc : Prop :=
  (∀ op : Byte, decodeByte op = .breakpoint ↔ op = 0x00#8) ∧
  ∀ s : State,
    exec .breakpoint s = .next { s with pc := s.pc + 1#32 } ∧
    (s.mapped s.pc = false → s.fetchByte = 0x00#8) ∧
    (s.fetchByte = 0x00#8 → stepReport s = .ok { unmappedAddress := !s.mapped s.pc })

/-- R152: the four unsupported bytes. -/
def Obligations.UnsupportedBytesOnlyAdvancePc : Prop :=
  (∀ op : Byte, decodeByte op = .unsupported01 ↔ op = 0x01#8) ∧
  (∀ op : Byte, decodeByte op = .unsupported03 ↔ op = 0x03#8) ∧
  (∀ op : Byte, decodeByte op = .unsupported0E ↔ op = 0x0E#8) ∧
  (∀ op : Byte, decodeByte op = .unsupported0F ↔ op = 0x0F#8) ∧
  ∀ (s : State) (i : Instr), i ∈ [Instr.unsupported01, .unsupported03, .unsupported0E, .unsupported0F] →
    exec i s = .next { s with pc := s.pc + 1#32 } ∧
    execReport i s = .ok { unknownOpcode := true } ∧
    (s.fetchInstr = i → stepReport s = .ok { unknownOpcode := true })

/-! ### The address translator and the memory accesses -/

/-- R42: the lookup gives the first matching region and the offset in it, or nothing if none matches. -/
def Obligations.TranslateFindsTheFirstMatchingRegion : Prop :=
  ∀ (s : State) (a : Word),
    (∀ i off, s.translate a = some (i, off) ↔
      ∃ r, s.regions[i]? = some r ∧ r.base.toNat ≤ a.toNat ∧ a.toNat - r.base.toNat < r.size.toNat ∧
        off = a.toNat - r.base.toNat ∧
        ∀ j < i, ∀ q, s.regions[j]? = some q → ¬ (q.base.toNat ≤ a.toNat ∧ a.toNat - q.base.toNat < q.size.toNat)) ∧
    (s.translate a = none ↔
      ∀ q ∈ s.regions, ¬ (q.base.toNat ≤ a.toNat ∧ a.toNat - q.base.toNat < q.size.toNat))

/-- The lookup of an address that two regions share finds the earlier of them or one before it; an empty region matches
nothing; a region that crosses 2^32 matches only from its base up (R42, R43). That the one lookup serves all three accesses
is the spec's own decision D8 (log 11); the statements of the three accesses below are over this lookup. -/
def Obligations.EarlierRegionWinsAndDegenerateRegionsMatchLittle : Prop :=
  (∀ (s : State) (a : Word) (i j : Nat) (r q : Region), s.regions[i]? = some r → s.regions[j]? = some q → i < j →
    r.matchesAddress a = true → q.matchesAddress a = true → ∃ k off, k ≤ i ∧ s.translate a = some (k, off)) ∧
  (∀ (r : Region) (a : Word), r.size = 0#32 → r.matchesAddress a = false) ∧
  ∀ (r : Region) (a : Word), 2 ^ 32 < r.base.toNat + r.size.toNat →
    (r.matchesAddress a = true ↔ r.base.toNat ≤ a.toNat)

/-- R44: the opcode byte read gives the byte of the first matching region, or 0x00 with a report; it changes no state and
never stops. -/
def Obligations.ByteReadGivesTheStoredByteOrZero : Prop :=
  ∀ (t : Transaction) (a : Word),
    (∀ i off, t.state.translate a = some (i, off) →
      memReadByte a t = .ok (storageByte t.state.regions i off, t)) ∧
    (t.state.translate a = none →
      memReadByte a t = .ok (0x00#8, { t with reported := { t.reported with unmappedAddress := true } }))

/-- The word read (R45). That an address that is not contained is refused is the spec's own decision D7 (log 10), and that a
misaligned one is used as it stands its decision D6 (log 9). -/
def Obligations.WordReadAssemblesTheFourBytes : Prop :=
  ∀ (t : Transaction) (a : Word),
    let bad := t.reported.misalignedAccess || (t.state.cfg.alignCheck && !wordAligned a)
    (∀ i off, t.state.translate a = some (i, off) → off + 3 < regionSize t.state.regions i →
      memReadWord a t = .ok (fromWire t.state.cfg.byteOrder (storageByte t.state.regions i off)
        (storageByte t.state.regions i (off + 1)) (storageByte t.state.regions i (off + 2))
        (storageByte t.state.regions i (off + 3)), { t with reported := { t.reported with misalignedAccess := bad } })) ∧
    (∀ i off, t.state.translate a = some (i, off) → ¬ off + 3 < regionSize t.state.regions i →
      memReadWord a t = .error (.wordNotContained a)) ∧
    (t.state.translate a = none →
      memReadWord a t = .ok (0x00000000#32,
        { t with reported := { t.reported with unmappedAddress := true, misalignedAccess := bad } }))

/-- The word write (R46): the four bytes of the matching region take the word's bytes, every other storage byte and
everything else in the state stay; an unmapped write changes nothing. That an address that is not contained is refused is
the spec's own decision D7 (log 10), and that a misaligned one is used as it stands its decision D6 (log 9). -/
def Obligations.WordWriteStoresTheFourBytes : Prop :=
  ∀ (t : Transaction) (a v : Word),
    let bad := t.reported.misalignedAccess || (t.state.cfg.alignCheck && !wordAligned a)
    (∀ i off, t.state.translate a = some (i, off) → off + 3 < regionSize t.state.regions i →
      ∃ rs : List Region,
        memWriteWord a v t = .ok ((), { state := { t.state with regions := rs },
                                        reported := { t.reported with misalignedAccess := bad } }) ∧
        geometry rs = geometry t.state.regions ∧
        (∀ k < 4, storageByte rs i (off + k) = toWire t.state.cfg.byteOrder v k) ∧
        ∀ j k, ¬ (j = i ∧ off ≤ k ∧ k < off + 4) → storageByte rs j k = storageByte t.state.regions j k) ∧
    (∀ i off, t.state.translate a = some (i, off) → ¬ off + 3 < regionSize t.state.regions i →
      memWriteWord a v t = .error (.wordNotContained a)) ∧
    (t.state.translate a = none →
      memWriteWord a v t = .ok ((),
        { t with reported := { t.reported with unmappedAddress := true, misalignedAccess := bad } }))

/-- The two conversions, byte by byte, and that each undoes the other in either byte order. The first two clauses are the
usual definitions of big-endian and little-endian, PRESUMED (log 13): R47 writes them out "from general knowledge, not in
source". -/
def Obligations.ByteOrderConversionsAreInverse : Prop :=
  (∀ b0 b1 b2 b3 : Byte, fromWire .be b0 b1 b2 b3 = b0 ++ b1 ++ b2 ++ b3 ∧
    fromWire .le b0 b1 b2 b3 = b3 ++ b2 ++ b1 ++ b0) ∧
  (∀ v : Word, toWire .be v 0 = v.extractLsb' 24 8 ∧ toWire .be v 1 = v.extractLsb' 16 8 ∧
    toWire .be v 2 = v.extractLsb' 8 8 ∧ toWire .be v 3 = v.extractLsb' 0 8 ∧
    toWire .le v 0 = v.extractLsb' 0 8 ∧ toWire .le v 1 = v.extractLsb' 8 8 ∧
    toWire .le v 2 = v.extractLsb' 16 8 ∧ toWire .le v 3 = v.extractLsb' 24 8) ∧
  (∀ (o : ByteOrder) (v : Word), fromWire o (toWire o v 0) (toWire o v 1) (toWire o v 2) (toWire o v 3) = v) ∧
  ∀ (o : ByteOrder) (b0 b1 b2 b3 : Byte),
    let v := fromWire o b0 b1 b2 b3
    toWire o v 0 = b0 ∧ toWire o v 1 = b1 ∧ toWire o v 2 = b2 ∧ toWire o v 3 = b3

/-- R52: a word written and read back is the same word where it is mapped and contained; where it is unmapped it reads 0
and no storage changes. Reads are idempotent, since a read changes no state. -/
def Obligations.WriteThenReadReturnsTheWord : Prop :=
  ∀ (s : State) (a v : Word), s.wordDefined a = true →
    (s.mapped a = true → (s.writeWord a v).readWord a = v) ∧
    (s.mapped a = false → (s.writeWord a v).readWord a = 0x00000000#32 ∧ s.writeWord a v = s)

/-- R49: after a write of a mapped, contained word, the opcode byte at `a + k` is byte `k` of the word in BYTE_ORDER, on a
platform that keeps R195: no two regions overlap and the word lies inside the address space. (The spec draws R49 from R44,
R46 and R47; with overlapping regions the lookup of `a + k` can find an earlier region: log 24. What BE and LE mean is
presumed: log 13.) -/
def Obligations.StoredWordIsFetchedInByteOrder : Prop :=
  ∀ (s : State) (a v : Word) (k : Nat), s.disjointRegions → s.mapped a = true → s.wordDefined a = true →
    a.toNat + 3 < 2 ^ 32 → k < 4 →
    (s.writeWord a v).readByte (a + BitVec.ofNat 32 k) =
      match s.cfg.byteOrder with
      | .be => v.extractLsb' (24 - 8 * k) 8
      | .le => v.extractLsb' (8 * k) 8

/-! ### Rules of the whole machine, over all instructions -/

/-- A step whose word accesses are all unmapped or contained has a next state; any other is refused at one of its accesses
that is not. Refusing it is the spec's own decision D7 in R48 (log 10); LOADSP's address
is by its decision D4 (log 7). -/
def Obligations.RefusedExactlyWhereAWordIsNotContained : Prop :=
  ∀ (i : Instr) (s : State),
    (accessesDefined i s → ∃ t, exec i s = .next t) ∧
    (¬ accessesDefined i s →
      ∃ a ∈ wordAccesses i s, s.wordDefined a = false ∧ exec i s = .refused (.wordNotContained a))

/-- R21, R32: `pc` after an instruction. -/
def Obligations.PcAdvancesByOneExceptAfterPoppcAndEmulate : Prop :=
  ∀ (i : Instr) (s t : State), exec i s = .next t →
    t.pc = match i with
      | .poppc => s.readWord s.sp
      | .emulate n => BitVec.ofNat 32 (n * 32)
      | _ => s.pc + 1#32

/-- R22, R32: `sp` after an instruction. -/
def Obligations.SpMovesAsTheTableSays : Prop :=
  ∀ (i : Instr) (s t : State), exec i s = .next t →
    t.sp = match i with
      | .im _ => if s.idim then s.sp else s.sp - 4#32
      | .loadsp _ | .pushsp | .emulate _ => s.sp - 4#32
      | .storesp _ | .poppc | .add | .and | .or => s.sp + 4#32
      | .store => s.sp + 8#32
      | .popsp => s.readWord s.sp
      | .addsp _ | .load | .not | .flip | .nop | .breakpoint
      | .unsupported01 | .unsupported03 | .unsupported0E | .unsupported0F => s.sp

/-- IM sets `idim`, fifteen instructions clear it, BREAKPOINT and the unsupported bytes keep it; and no instruction but IM
reads it: from a state with another `idim` it does the same to all the rest of the state (R24). That BREAKPOINT keeps it is
the spec's own decision D19 on its conflict C2 (log 15). -/
def Obligations.IdimIsSetClearedKeptAndReadOnlyByIm : Prop :=
  (∀ (i : Instr) (s t : State), exec i s = .next t →
    t.idim = (if clearsIdim i then false else if keepsIdim i then s.idim else true)) ∧
  (∀ i : Instr, (∃ p, i = .im p) ↔ (clearsIdim i = false ∧ keepsIdim i = false)) ∧
  ∀ (i : Instr) (s t : State) (b : Bool), (∀ p, i ≠ .im p) → exec i s = .next t →
    exec i { s with idim := b } = .next { t with idim := if clearsIdim i then false else b }

/-- R32, R58: a step writes at most the one word at its stored address. Every byte at another address reads as before, and
so does every storage byte outside that word; an instruction that stores nothing leaves all of memory as it is. -/
def Obligations.MemoryChangesOnlyAtTheStoredAddress : Prop :=
  ∀ (i : Instr) (s t : State), exec i s = .next t →
    (storedAddress i s = none → t.regions = s.regions ∧ ∀ b : Word, t.readByte b = s.readByte b) ∧
    ∀ a : Word, storedAddress i s = some a →
      (∀ b : Word, ¬ inWordAt a b → t.readByte b = s.readByte b) ∧
      ∀ j k : Nat, ¬ inStoredWord s a j k → storageByte t.regions j k = storageByte s.regions j k

/-- R41, R27: no step changes the configuration, or the number, base or size of any region. -/
def Obligations.ConfigurationAndRegionTableNeverChange : Prop :=
  ∀ s t : State, step s = .next t → t.cfg = s.cfg ∧ geometry t.regions = geometry s.regions

/-- Every step keeps every region's storage in its canonical form, with no byte listed outside the region's size. The form
is the model's own (log 2, log 3). -/
def Obligations.StepKeepsMemoryWellFormed : Prop :=
  ∀ s t : State, s.memoryWf → step s = .next t → t.memoryWf

/-- The model's choice of reset state (log 3, log 4) has a well-formed memory. -/
def Obligations.ResetMemoryIsWellFormed : Prop := State.reset.memoryWf

/-- Construction gives `pc`, `sp` and `idim` their reset values and keeps the configuration and the loader's regions,
whatever they are (R190); so `flags` is 0. That `idim` starts as 0 is the spec's own decision D2 (log 5), and the `flags`
view its decision D3 (log 6). -/
def Obligations.ConstructionSetsTheResetValues : Prop :=
  ∀ (cfg : Config) (regions : List Region), regions ≠ [] →
    ∃ s, State.construct cfg regions = some s ∧ s.pc = cfg.resetPc ∧ s.sp = cfg.resetSp ∧ s.idim = false ∧
      s.regions = regions ∧ s.cfg = cfg ∧ s.flags = 0x00#8

/-- The model's choice of reset state (log 3, log 4): the conventional platform of R192; and the model's choice that
construction refuses an empty region table under every configuration (log 18). -/
def Obligations.ResetIsTheConventionalPlatform : Prop :=
  State.construct Config.conventional conventionalRegions = some State.reset ∧
  State.reset.pc = 0x00000000#32 ∧ State.reset.sp = 0x00010000#32 ∧ State.reset.idim = false ∧
  geometry State.reset.regions = [(0x00000000#32, 0x00010000#32)] ∧
  ∀ cfg : Config, State.construct cfg [] = none

/-- The model's choice (DESIGN CHOICE, log 6), by the spec's own decision D3 in R25: bit IDIM_BIT of the `flags` view is
`idim`, and the other seven bits are 0. -/
def Obligations.FlagsShowsIdimAtIdimBit : Prop :=
  ∀ (s : State) (k : Nat), s.flags.getLsbD k = (s.idim && decide (k = s.cfg.idimBit.val))

/-- Control reaches an address other than `pc + 1` only through POPPC and EMULATE, both of which leave `idim` clear;
and `idim` is set only after IM, or after a BREAKPOINT or an unsupported byte that found it set
(R202; for BREAKPOINT by the spec's own decision D19, log 15). -/
def Obligations.JumpTargetsAreReachedWithIdimClear : Prop :=
  ∀ s t : State, step s = .next t →
    (t.pc ≠ s.pc + 1#32 → s.fetchInstr = .poppc ∨ ∃ n, s.fetchInstr = .emulate n) ∧
    (s.fetchInstr = .poppc ∨ (∃ n, s.fetchInstr = .emulate n) → t.idim = false) ∧
    (t.idim = true → t.pc = s.pc + 1#32 ∧
      ((∃ p, s.fetchInstr = .im p) ∨ (s.idim = true ∧ keepsIdim s.fetchInstr = true)))

/-- R91, which the spec derives from R90: a run of IM bytes from `idim` = 0 pushes one word, made of all the payloads, and
changes nothing else; and every word is the word of some run of at most five. -/
def Obligations.ImRunPushesOneWord : Prop :=
  (∀ (s : State) (p : BitVec 7) (ps : List (BitVec 7)), s.idim = false → s.mapped (s.sp - 4#32) = true →
    s.wordDefined (s.sp - 4#32) = true →
    ∃ t, execRun ((p :: ps).map .im) s = .next t ∧ t.sp = s.sp - 4#32 ∧ t.idim = true ∧
      t.pc = s.pc + BitVec.ofNat 32 (ps.length + 1) ∧ t.readWord (s.sp - 4#32) = imRunWord p ps ∧
      (∀ b : Word, ¬ inWordAt (s.sp - 4#32) b → t.readByte b = s.readByte b) ∧
      ∀ j k : Nat, ¬ inStoredWord s (s.sp - 4#32) j k → storageByte t.regions j k = storageByte s.regions j k) ∧
  ∀ w : Word, ∃ (p : BitVec 7) (ps : List (BitVec 7)), ps.length < 5 ∧ imRunWord p ps = w

/-- R82: the bytes of CONST `w` are the shortest run of IM bytes that leaves `w` on top of the stack when entered with
`idim` = 0. -/
def Obligations.ConstLeavesItsWordOnTop : Prop :=
  ∀ w : Word,
    (∀ s : State, s.idim = false → s.mapped (s.sp - 4#32) = true → s.wordDefined (s.sp - 4#32) = true →
      ∃ t, execRun ((constBytes w).map decodeByte) s = .next t ∧ t.sp = s.sp - 4#32 ∧ t.readWord t.sp = w) ∧
    (∀ (p : BitVec 7) (ps : List (BitVec 7)), imRunWord p ps = w → (constBytes w).length ≤ ps.length + 1)

/-- R120, R121: PUSHSP followed by POPSP restores `sp`, where the word below `sp` is mapped and contained. -/
def Obligations.PushspThenPopspRestoresSp : Prop :=
  ∀ s : State, s.mapped (s.sp - 4#32) = true → s.wordDefined (s.sp - 4#32) = true →
    ∃ t, execRun [.pushsp, .popsp] s = .next t ∧ t.sp = s.sp ∧ t.pc = s.pc + 2#32 ∧ t.idim = false ∧
      ∀ b : Word, ¬ inWordAt (s.sp - 4#32) b → t.readByte b = s.readByte b

/-- R151: on entry to a slot routine the return address is on top of the stack and the caller's top word below it; a POPPC
executed with the return address on top resumes at the byte after the EMULATE with `idim` = 0. -/
def Obligations.EmulateEntryAndReturn : Prop :=
  ∀ (s : State) (n : Nat), s.mapped (s.sp - 4#32) = true → s.wordDefined (s.sp - 4#32) = true →
    ∃ t, exec (.emulate n) s = .next t ∧ t.readWord t.sp = s.pc + 1#32 ∧
      t.readWord (t.sp + 4#32) = s.readWord s.sp ∧ t.idim = false ∧
      ∀ u : State, u.wordDefined u.sp = true → u.readWord u.sp = t.readWord t.sp →
        ∃ v, exec .poppc u = .next v ∧ v.pc = s.pc + 1#32 ∧ v.sp = u.sp + 4#32 ∧ v.idim = false

/-- R133, R134: NOT twice and FLIP twice restore every byte of memory. -/
def Obligations.NotAndFlipAreInvolutions : Prop :=
  ∀ (s : State) (i : Instr), i ∈ [Instr.not, .flip] → s.wordDefined s.sp = true →
    ∃ t, execRun [i, i] s = .next t ∧ t.sp = s.sp ∧ t.readWord t.sp = s.readWord s.sp ∧
      ∀ j k : Nat, storageByte t.regions j k = storageByte s.regions j k

/-- R135: exchanging the top two words changes neither the result nor the final `sp` of ADD, AND and OR. -/
def Obligations.AddAndOrAreCommutative : Prop :=
  ∀ (s t u : State) (i : Instr), i ∈ [Instr.add, .and, .or] → s.mapped s.sp = true → s.mapped (s.sp + 4#32) = true →
    exec i s = .next t →
    exec i ((s.writeWord s.sp (s.readWord (s.sp + 4#32))).writeWord (s.sp + 4#32) (s.readWord s.sp)) = .next u →
    u.sp = t.sp ∧ u.readWord u.sp = t.readWord t.sp

/-- R164, R6: the state transition of a step does not depend on STRICT, ALIGN_CHECK, IDIM_BIT, RESET_PC or RESET_SP: with
any other values of these five, and the same BYTE_ORDER and REGIONS, it is the same. What STRICT does is the
spec's own decision D9 (log 12). -/
def Obligations.StrictModeChangesNoTransition : Prop :=
  ∀ (s : State) (c : Config), c.byteOrder = s.cfg.byteOrder →
    (∀ t, step s = .next t → step { s with cfg := c } = .next { t with cfg := c }) ∧
    ∀ r, step s = .refused r → step { s with cfg := c } = .refused r

/-- R162, R164: the status output. Every step that has a next state has a status: "ok" when STRICT = false, else the 3-bit
code of the reported set. The set and its code are the spec's own decision D9 (log 12). -/
def Obligations.StatusIsOkUnlessStrictReportsIt : Prop :=
  ∀ s t : State, step s = .next t → ∃ r, stepReport s = .ok r ∧
    (s.cfg.strict = false → stepStatus s = .ok 0b000#3) ∧
    (s.cfg.strict = true → ∃ st : BitVec 3, stepStatus s = .ok st ∧ st.getLsbD 0 = r.unmappedAddress ∧
      st.getLsbD 1 = r.misalignedAccess ∧ st.getLsbD 2 = r.unknownOpcode)

/-- R152, R164: UnknownOpcode never occurs together with another condition (the set is the spec's own decision D9,
log 12). -/
def Obligations.UnknownOpcodeIsReportedAlone : Prop :=
  ∀ (s : State) (r : Report), stepReport s = .ok r → r.unknownOpcode = true → r = { unknownOpcode := true }

/-- No instruction sees the byte order (R47). Two machines that differ in BYTE_ORDER, with every aligned word the same, stay
so under every instruction whose word accesses are aligned, on a platform whose regions are. That the other BYTE_ORDER
means each word's bytes reversed rests on the PRESUMED meaning of big-endian and little-endian (log 13), which R47 marks
"from general knowledge, not in source". -/
def Obligations.ByteOrderIsInvisibleToAlignedPrograms : Prop :=
  ∀ (i : Instr) (s t s' : State), s.alignedPlatform → mirrored s t →
    (∀ a ∈ wordAccesses i s, wordAligned a = true) → exec i s = .next s' →
    ∃ t', exec i t = .next t' ∧ mirrored s' t'

/-- R194: on a platform whose regions' bases and sizes are multiples of 4, an aligned word is unmapped or wholly in its
region, so an instruction whose word accesses are aligned is never refused (the refusal: D7, log 10). -/
def Obligations.AlignedPlatformNeverRefusesAlignedAccesses : Prop :=
  (∀ (s : State) (a : Word), s.alignedPlatform → wordAligned a = true → s.wordDefined a = true) ∧
  ∀ (i : Instr) (s : State), s.alignedPlatform → (∀ a ∈ wordAccesses i s, wordAligned a = true) →
    ∃ t, exec i s = .next t

/-- Execution through `n` unmapped addresses only moves `pc`, modulo 2^32 (R141, R205). That these BREAKPOINTs keep `idim`
is the spec's own decision D19 on its conflict C2 (log 15). -/
def Obligations.UnmappedRunOnlyAdvancesPc : Prop :=
  ∀ (n : Nat) (s : State), (∀ k < n, s.mapped (s.pc + BitVec.ofNat 32 k) = false) →
    stepRun n s = .next { s with pc := s.pc + BitVec.ofNat 32 n }
end

