-- ==== Sys2Proof/Laws/State.lean ====
section
/-! SUPPORT. One lemma per field per update of the state, so that no proof unfolds a record update; the functions of the
region table see no register; construction and reset. -/

namespace Sys2Proof.Machine

variable (s : State) (v a : Word) (b : Bool) (rs : List Region)

@[simp] theorem withPc_cfg : (s.withPc v).cfg = s.cfg := rfl
@[simp] theorem withPc_regions : (s.withPc v).regions = s.regions := rfl
@[simp] theorem withPc_pc : (s.withPc v).pc = v := rfl
@[simp] theorem withPc_sp : (s.withPc v).sp = s.sp := rfl
@[simp] theorem withPc_idim : (s.withPc v).idim = s.idim := rfl

@[simp] theorem withSp_cfg : (s.withSp v).cfg = s.cfg := rfl
@[simp] theorem withSp_regions : (s.withSp v).regions = s.regions := rfl
@[simp] theorem withSp_pc : (s.withSp v).pc = s.pc := rfl
@[simp] theorem withSp_sp : (s.withSp v).sp = v := rfl
@[simp] theorem withSp_idim : (s.withSp v).idim = s.idim := rfl

@[simp] theorem withIdim_cfg : (s.withIdim b).cfg = s.cfg := rfl
@[simp] theorem withIdim_regions : (s.withIdim b).regions = s.regions := rfl
@[simp] theorem withIdim_pc : (s.withIdim b).pc = s.pc := rfl
@[simp] theorem withIdim_sp : (s.withIdim b).sp = s.sp := rfl
@[simp] theorem withIdim_idim : (s.withIdim b).idim = b := rfl

@[simp] theorem withRegions_cfg : (s.withRegions rs).cfg = s.cfg := rfl
@[simp] theorem withRegions_regions : (s.withRegions rs).regions = rs := rfl
@[simp] theorem withRegions_pc : (s.withRegions rs).pc = s.pc := rfl
@[simp] theorem withRegions_sp : (s.withRegions rs).sp = s.sp := rfl
@[simp] theorem withRegions_idim : (s.withRegions rs).idim = s.idim := rfl

@[simp] theorem writeWord_cfg : (s.writeWord a v).cfg = s.cfg := rfl
@[simp] theorem writeWord_regions : (s.writeWord a v).regions = s.writeWordRegions a v := rfl
@[simp] theorem writeWord_pc : (s.writeWord a v).pc = s.pc := rfl
@[simp] theorem writeWord_sp : (s.writeWord a v).sp = s.sp := rfl
@[simp] theorem writeWord_idim : (s.writeWord a v).idim = s.idim := rfl

/-! ### The functions of the region table see no register -/

@[simp] theorem translate_withPc : (s.withPc v).translate a = s.translate a := rfl
@[simp] theorem translate_withSp : (s.withSp v).translate a = s.translate a := rfl
@[simp] theorem translate_withIdim : (s.withIdim b).translate a = s.translate a := rfl
@[simp] theorem mapped_withPc : (s.withPc v).mapped a = s.mapped a := rfl
@[simp] theorem mapped_withSp : (s.withSp v).mapped a = s.mapped a := rfl
@[simp] theorem mapped_withIdim : (s.withIdim b).mapped a = s.mapped a := rfl
@[simp] theorem wordDefined_withPc : (s.withPc v).wordDefined a = s.wordDefined a := rfl
@[simp] theorem wordDefined_withSp : (s.withSp v).wordDefined a = s.wordDefined a := rfl
@[simp] theorem wordDefined_withIdim : (s.withIdim b).wordDefined a = s.wordDefined a := rfl
@[simp] theorem wordReport_withPc : (s.withPc v).wordReport a = s.wordReport a := rfl
@[simp] theorem wordReport_withSp : (s.withSp v).wordReport a = s.wordReport a := rfl
@[simp] theorem wordReport_withIdim : (s.withIdim b).wordReport a = s.wordReport a := rfl
@[simp] theorem readByte_withPc : (s.withPc v).readByte a = s.readByte a := rfl
@[simp] theorem readByte_withSp : (s.withSp v).readByte a = s.readByte a := rfl
@[simp] theorem readByte_withIdim : (s.withIdim b).readByte a = s.readByte a := rfl
@[simp] theorem readWord_withPc : (s.withPc v).readWord a = s.readWord a := rfl
@[simp] theorem readWord_withSp : (s.withSp v).readWord a = s.readWord a := rfl
@[simp] theorem readWord_withIdim : (s.withIdim b).readWord a = s.readWord a := rfl

variable (w : Word)

@[simp] theorem writeWordRegions_withPc : (s.withPc v).writeWordRegions a w = s.writeWordRegions a w := rfl
@[simp] theorem writeWordRegions_withSp : (s.withSp v).writeWordRegions a w = s.writeWordRegions a w := rfl
@[simp] theorem writeWordRegions_withIdim : (s.withIdim b).writeWordRegions a w = s.writeWordRegions a w := rfl

/-! ### The report set -/

@[simp] theorem union_empty (r : Report) : Report.empty.union r = r := by
  cases r; rfl

theorem union_assoc (p q r : Report) : (p.union q).union r = p.union (q.union r) := by
  simp [Report.union, Bool.or_assoc]

@[simp] theorem union_self (r : Report) : r.union r = r := by
  simp [Report.union]

/-! ### Construction and reset -/

/-- `State.reset` is what construction gives on the conventional platform (R192). -/
theorem construct_conventional : State.construct Config.conventional conventionalRegions = some State.reset := rfl

end Sys2Proof.Machine
end

