-- ==== Sys2Proof/Laws/Memory.lean ====
section
/-! SUPPORT. Laws of one region's storage: read after write, and the canonical form. They hold for every storage, canonical
or not, except where a hypothesis says so. -/

namespace Sys2Proof.Machine

theorem Memory.read_insert_same (m : Memory) (k : Nat) (b : Byte) (h : ∀ c ∈ m, c.1 ≠ k) :
    (m.insert k b).read k = b := by
  induction m with
  | nil => simp [Memory.insert, Memory.read]
  | cons c rest ih =>
    obtain ⟨j, d⟩ := c
    have hj : j ≠ k := h (j, d) (by simp)
    have ih := ih fun c hc => h c (by simp [hc])
    by_cases hk : k < j <;> simp [Memory.insert, Memory.read, hk, hj, ih]

theorem Memory.read_insert_other (m : Memory) (k l : Nat) (b : Byte) (h : l ≠ k) :
    (m.insert k b).read l = m.read l := by
  induction m with
  | nil => simp [Memory.insert, Memory.read, h.symm]
  | cons c rest ih =>
    obtain ⟨j, d⟩ := c
    by_cases hk : k < j
    · simp [Memory.insert, Memory.read, hk, h.symm]
    · simp [Memory.insert, Memory.read, hk, ih]

theorem Memory.mem_erase (m : Memory) (k : Nat) (c : Host.Cell) : c ∈ m.erase k ↔ c ∈ m ∧ c.1 ≠ k := by
  simp [Memory.erase]

theorem Memory.read_unlisted (m : Memory) (k : Nat) (h : ∀ c ∈ m, c.1 ≠ k) : m.read k = Memory.unlisted := by
  induction m with
  | nil => rfl
  | cons c rest ih =>
    obtain ⟨j, d⟩ := c
    have hj : j ≠ k := h (j, d) (by simp)
    simp [Memory.read, hj, ih fun c hc => h c (by simp [hc])]

theorem Memory.read_erase_other (m : Memory) (k l : Nat) (h : l ≠ k) : (m.erase k).read l = m.read l := by
  induction m with
  | nil => rfl
  | cons c rest ih =>
    obtain ⟨j, d⟩ := c
    unfold Memory.erase at ih ⊢
    by_cases hj : j = k
    · subst hj
      simp [Memory.read, h.symm, ih]
    · simp [Memory.read, hj, ih]

/-- A byte written at an offset reads back there. -/
@[simp] theorem Memory.read_write_same (m : Memory) (k : Nat) (b : Byte) : (m.write k b).read k = b := by
  unfold Memory.write
  split
  · next h => rw [h]; exact (m.erase k).read_unlisted k fun c hc => ((m.mem_erase k c).1 hc).2
  · exact (m.erase k).read_insert_same k b fun c hc => ((m.mem_erase k c).1 hc).2

/-- A write leaves every other offset alone. -/
theorem Memory.read_write_other (m : Memory) (k l : Nat) (b : Byte) (h : l ≠ k) :
    (m.write k b).read l = m.read l := by
  unfold Memory.write
  split
  · exact m.read_erase_other k l h
  · rw [Memory.read_insert_other _ _ _ _ h, m.read_erase_other k l h]

/-- What a storage reads as after a write. -/
theorem Memory.read_write (m : Memory) (k l : Nat) (b : Byte) :
    (m.write k b).read l = if l = k then b else m.read l := by
  split
  · next h => rw [h, Memory.read_write_same]
  · next h => exact m.read_write_other k l b h

theorem Memory.mem_insert (m : Memory) (k : Nat) (b : Byte) (c : Host.Cell) :
    c ∈ m.insert k b ↔ c = (k, b) ∨ c ∈ m := by
  induction m with
  | nil => simp [Memory.insert]
  | cons d rest ih =>
    by_cases hk : k < d.1
    · simp [Memory.insert, hk]
    · simp [Memory.insert, hk, ih, or_left_comm]

/-- Every cell of a written storage is a cell of the old one or the written one. -/
theorem Memory.mem_write (m : Memory) (k : Nat) (b : Byte) (c : Host.Cell) (h : c ∈ m.write k b) :
    c = (k, b) ∨ c ∈ m := by
  unfold Memory.write at h
  split at h
  · exact .inr ((m.mem_erase k c).1 h).1
  · rcases (Memory.mem_insert _ _ _ _).1 h with h | h
    · exact .inl h
    · exact .inr ((m.mem_erase k c).1 h).1

theorem Memory.pairwise_insert (m : Memory) (k : Nat) (b : Byte) (hm : m.Pairwise (fun c d => c.1 < d.1))
    (h : ∀ c ∈ m, c.1 ≠ k) : (m.insert k b).Pairwise (fun c d => c.1 < d.1) := by
  induction m with
  | nil => simp [Memory.insert]
  | cons d rest ih =>
    obtain ⟨hd, hrest⟩ := List.pairwise_cons.1 hm
    have hne : d.1 ≠ k := h d (by simp)
    by_cases hk : k < d.1
    · simp only [Memory.insert, hk, if_true]
      refine List.pairwise_cons.2 ⟨?_, hm⟩
      intro c hc
      rcases List.mem_cons.1 hc with rfl | hc
      · exact hk
      · exact hk.trans (hd c hc)
    · simp only [Memory.insert, hk, if_false]
      refine List.pairwise_cons.2 ⟨?_, ih hrest fun c hc => h c (by simp [hc])⟩
      intro c hc
      rcases (Memory.mem_insert _ _ _ _).1 hc with rfl | hc
      · show d.1 < k
        omega
      · exact hd c hc

/-- A write keeps the canonical form. -/
theorem Memory.wf_write (m : Memory) (k : Nat) (b : Byte) (h : m.wf) : (m.write k b).wf := by
  obtain ⟨hp, hu⟩ := h
  have herase : (m.erase k).Pairwise (fun c d => c.1 < d.1) := hp.filter _
  unfold Memory.write
  split
  · exact ⟨herase, fun c hc => hu c ((m.mem_erase k c).1 hc).1⟩
  · next hb =>
    refine ⟨Memory.pairwise_insert _ _ _ herase fun c hc => ((m.mem_erase k c).1 hc).2, ?_⟩
    intro c hc
    rcases (Memory.mem_insert _ _ _ _).1 hc with rfl | hc
    · exact hb
    · exact hu c ((m.mem_erase k c).1 hc).1

theorem Memory.read_cons_of_mem (m : Memory) (hp : m.Pairwise (fun c d => c.1 < d.1)) (c : Host.Cell) (hc : c ∈ m) :
    m.read c.1 = c.2 := by
  induction m with
  | nil => cases hc
  | cons d rest ih =>
    obtain ⟨hd, hrest⟩ := List.pairwise_cons.1 hp
    rcases List.mem_cons.1 hc with rfl | hc
    · simp [Memory.read]
    · have hlt := hd c hc
      simp [Memory.read, Nat.ne_of_lt hlt, ih hrest hc]

/-- Two canonical storages that read the same at every offset are equal data. -/
theorem Memory.eq_of_read_eq (m n : Memory) (hm : m.wf) (hn : n.wf) (h : ∀ k, m.read k = n.read k) : m = n := by
  have sub : ∀ p q : Memory, p.wf → (∀ k, p.read k = q.read k) → ∀ c ∈ p, c ∈ q := by
    intro p q hp hpq c hc
    by_contra hq
    have hread : q.read c.1 = c.2 := by rw [← hpq, p.read_cons_of_mem hp.1 c hc]
    by_cases hk : ∃ d ∈ q, d.1 = c.1
    · obtain ⟨d, hd, hdk⟩ := hk
      have key : ∀ r : Memory, r.read c.1 ≠ Memory.unlisted → (c.1, r.read c.1) ∈ r := by
        intro r
        induction r with
        | nil => intro h; exact absurd rfl h
        | cons e rest ih =>
          obtain ⟨j, b⟩ := e
          intro h
          by_cases he : j = c.1
          · subst he
            simp [Memory.read]
          · simp only [Memory.read, he, if_false] at h ⊢
            exact List.mem_cons_of_mem _ (ih h)
      have := key q (by rw [hread]; exact hp.2 c hc)
      rw [hread] at this
      exact hq this
    · push Not at hk
      rw [q.read_unlisted c.1 hk] at hread
      exact hp.2 c hc hread.symm
  have irr : ∀ {p : Memory}, p.wf → p.Nodup := fun hp => hp.1.imp fun {a b} hab => by
    intro heq; rw [heq] at hab; exact lt_irrefl _ hab
  have perm : m.Perm n := (List.perm_ext_iff_of_nodup (irr hm) (irr hn)).2 fun c =>
    ⟨sub m n hm h c, sub n m hn (fun k => (h k).symm) c⟩
  exact perm.eq_of_pairwise (fun a b _ _ hab hba => absurd (hab.trans hba) (lt_irrefl _)) hm.1 hn.1

end Sys2Proof.Machine
end

