-- ==== Sys2Proof/Laws/Translate.lean ====
section
/-! SUPPORT. Laws of the address translator and of the region table: what a lookup finds, that it depends on bases and
sizes only, and what a storage byte reads as after one is set. -/

namespace Sys2Proof.Machine

/-- A lookup that answers names a region of the table that matches, and the address's offset in it. -/
theorem translateIn_some (rs : List Region) (a : Word) (i off : Nat) (h : translateIn rs a = some (i, off)) :
    ∃ r, rs[i]? = some r ∧ r.matchesAddress a = true ∧ off = a.toNat - r.base.toNat := by
  induction rs generalizing i with
  | nil => cases h
  | cons q rest ih =>
    unfold translateIn at h
    split at h
    · next hq =>
      simp only [Option.some.injEq, Prod.mk.injEq] at h
      obtain ⟨rfl, rfl⟩ := h
      exact ⟨q, rfl, hq, rfl⟩
    · simp only [Option.map_eq_some_iff, Prod.mk.injEq, Prod.exists] at h
      obtain ⟨j, off', hj, rfl, rfl⟩ := h
      simpa using ih j hj

theorem matchesAddress_iff (r : Region) (a : Word) :
    r.matchesAddress a = true ↔ r.base.toNat ≤ a.toNat ∧ a.toNat - r.base.toNat < r.size.toNat := by
  simp [Region.matchesAddress]

theorem regionSize_of_getElem? (rs : List Region) (i : Nat) (r : Region) (h : rs[i]? = some r) :
    regionSize rs i = r.size.toNat := by
  simp [regionSize, h]

/-- The offset of a mapped address is inside its region. -/
theorem translateIn_offset_lt (rs : List Region) (a : Word) (i off : Nat) (h : translateIn rs a = some (i, off)) :
    i < rs.length ∧ off < regionSize rs i := by
  obtain ⟨r, hr, hm, rfl⟩ := translateIn_some rs a i off h
  rw [regionSize_of_getElem? rs i r hr]
  exact ⟨(List.getElem?_eq_some_iff.1 hr).1, ((matchesAddress_iff r a).1 hm).2⟩

/-! ### Only bases and sizes matter -/

theorem translateIn_congr (rs qs : List Region) (a : Word) (h : geometry rs = geometry qs) :
    translateIn rs a = translateIn qs a := by
  induction rs generalizing qs with
  | nil =>
    cases qs with
    | nil => rfl
    | cons q qs => simp [geometry] at h
  | cons r rs ih =>
    cases qs with
    | nil => simp [geometry] at h
    | cons q qs =>
      simp only [geometry, List.map_cons, List.cons.injEq, Prod.mk.injEq] at h
      obtain ⟨⟨hb, hs⟩, h⟩ := h
      simp [translateIn, Region.matchesAddress, hb, hs, ih qs h]

theorem regionSize_eq_geometry (rs : List Region) (i : Nat) :
    regionSize rs i = match (geometry rs)[i]? with
      | some g => g.2.toNat
      | none => 0 := by
  unfold regionSize geometry
  rw [List.getElem?_map]
  cases rs[i]? <;> rfl

theorem regionSize_congr (rs qs : List Region) (i : Nat) (h : geometry rs = geometry qs) :
    regionSize rs i = regionSize qs i := by
  rw [regionSize_eq_geometry, regionSize_eq_geometry, h]

/-- Setting a storage byte keeps every base and size. -/
@[simp] theorem geometry_setStorageByte (rs : List Region) (i off : Nat) (b : Byte) :
    geometry (setStorageByte rs i off b) = geometry rs := by
  unfold geometry setStorageByte
  apply List.ext_getElem?
  intro j
  simp only [List.getElem?_map, List.getElem?_modify]
  cases rs[j]? with
  | none => rfl
  | some r => by_cases h : i = j <;> simp [h]

@[simp] theorem length_setStorageByte (rs : List Region) (i off : Nat) (b : Byte) :
    (setStorageByte rs i off b).length = rs.length := by
  simp [setStorageByte]

/-- What a storage byte is after one is set. -/
theorem storageByte_setStorageByte (rs : List Region) (i off : Nat) (b : Byte) (j k : Nat) (hi : i < rs.length) :
    storageByte (setStorageByte rs i off b) j k = if j = i ∧ k = off then b else storageByte rs j k := by
  unfold storageByte setStorageByte
  rw [List.getElem?_modify]
  by_cases hj : i = j
  · subst hj
    rw [List.getElem?_eq_getElem hi]
    simp [Memory.read_write]
  · have hj' : ¬ j = i := fun h => hj h.symm
    cases rs[j]? <;> simp [hj, hj']

end Sys2Proof.Machine
end

