-- ==== Sys2Proof/Laws/Words.lean ====
section
/-! SUPPORT. Laws of the word write: which bytes it sets and what it leaves alone. -/

namespace Sys2Proof.Machine

/-- A word write keeps every base and size (R41). -/
@[simp] theorem geometry_writeWordRegions (s : State) (a v : Word) :
    geometry (s.writeWordRegions a v) = geometry s.regions := by
  unfold State.writeWordRegions
  cases s.translate a <;> simp

@[simp] theorem length_writeWordRegions (s : State) (a v : Word) :
    (s.writeWordRegions a v).length = s.regions.length := by
  have h := congrArg List.length (geometry_writeWordRegions s a v)
  simpa [geometry] using h

@[simp] theorem translate_writeWord (s : State) (a v b : Word) : (s.writeWord a v).translate b = s.translate b :=
  translateIn_congr _ _ b (geometry_writeWordRegions s a v)

@[simp] theorem mapped_writeWord (s : State) (a v b : Word) : (s.writeWord a v).mapped b = s.mapped b := by
  simp [State.mapped]

@[simp] theorem regionSize_writeWordRegions (s : State) (a v : Word) (i : Nat) :
    regionSize (s.writeWordRegions a v) i = regionSize s.regions i :=
  regionSize_congr _ _ i (geometry_writeWordRegions s a v)

@[simp] theorem wordDefined_writeWord (s : State) (a v b : Word) :
    (s.writeWord a v).wordDefined b = s.wordDefined b := by
  simp [State.wordDefined]

@[simp] theorem wordReport_writeWord (s : State) (a v b : Word) :
    (s.writeWord a v).wordReport b = s.wordReport b := by
  simp [State.wordReport]

/-- A write to an unmapped address changes nothing (R46). -/
theorem writeWordRegions_unmapped (s : State) (a v : Word) (h : s.translate a = none) :
    s.writeWordRegions a v = s.regions := by
  simp [State.writeWordRegions, h]

/-- The storage bytes after a word write to a mapped address: the four from `off` on are the word's bytes in BYTE_ORDER,
every other byte of every region is as before (R46, R47). -/
theorem storageByte_writeWordRegions (s : State) (a v : Word) (i off j k : Nat) (h : s.translate a = some (i, off)) :
    storageByte (s.writeWordRegions a v) j k =
      if j = i ∧ off ≤ k ∧ k < off + 4 then toWire s.cfg.byteOrder v (k - off) else storageByte s.regions j k := by
  have hi := (translateIn_offset_lt _ _ _ _ h).1
  simp only [State.writeWordRegions, h]
  rw [storageByte_setStorageByte _ _ _ _ _ _ (by simpa using hi), storageByte_setStorageByte _ _ _ _ _ _ (by simpa using hi),
    storageByte_setStorageByte _ _ _ _ _ _ (by simpa using hi), storageByte_setStorageByte _ _ _ _ _ _ hi]
  by_cases hj : j = i
  · by_cases h0 : k = off
    · subst h0; simp [hj]
    by_cases h1 : k = off + 1
    · subst h1; simp [hj]
    by_cases h2 : k = off + 2
    · subst h2; simp [hj]
    by_cases h3 : k = off + 3
    · subst h3; simp [hj]
    have hk : ¬ (off ≤ k ∧ k < off + 4) := by omega
    simp [hj, h0, h1, h2, h3, hk]
  · simp [hj]

end Sys2Proof.Machine
end

