-- ==== Sys2Proof/Laws/Actions.lean ====
section
/-! SUPPORT. One lemma per shared operation of Machine/Ops.lean and Machine/Flags.lean: everything it can do from a
transaction. -/

namespace Sys2Proof.Machine

/-- A transaction with more conditions reported. -/
def Transaction.noted (t : Transaction) (r : Report) : Transaction := { t with reported := t.reported.union r }

@[simp] theorem noted_state (t : Transaction) (r : Report) : (t.noted r).state = t.state := rfl
@[simp] theorem noted_reported (t : Transaction) (r : Report) : (t.noted r).reported = t.reported.union r := rfl

@[simp] theorem bind_run {α β : Type} (x : Action α) (f : α → Action β) (t : Transaction) :
    (x >>= f) t = match x t with
      | .ok (a, u) => f a u
      | .error e => .error e := by
  show (StateT.bind x f) t = _
  unfold StateT.bind
  show Except.bind (x t) _ = _
  cases x t <;> rfl

@[simp] theorem pure_run {α : Type} (a : α) (t : Transaction) : (pure a : Action α) t = .ok (a, t) := rfl
@[simp] theorem current_run (t : Transaction) : current t = .ok (t.state, t) := rfl
@[simp] theorem update_run (f : State → State) (t : Transaction) :
    update f t = .ok ((), { t with state := f t.state }) := rfl
@[simp] theorem note_run (r : Report) (t : Transaction) : note r t = .ok ((), t.noted r) := rfl
@[simp] theorem report_run (c : Condition) (t : Transaction) : report c t = .ok ((), t.noted (Report.single c)) := rfl
@[simp] theorem refuse_run (r : Refusal) (t : Transaction) : refuse r t = .error r := rfl
@[simp] theorem readSp_run (t : Transaction) : readSp t = .ok (t.state.sp, t) := rfl
@[simp] theorem readPc_run (t : Transaction) : readPc t = .ok (t.state.pc, t) := rfl
@[simp] theorem readIdim_run (t : Transaction) : readIdim t = .ok (t.state.idim, t) := rfl
@[simp] theorem writeSp_run (v : Word) (t : Transaction) :
    writeSp v t = .ok ((), { t with state := t.state.withSp v }) := rfl
@[simp] theorem writePc_run (v : Word) (t : Transaction) :
    writePc v t = .ok ((), { t with state := t.state.withPc v }) := rfl
@[simp] theorem setIdim_run (t : Transaction) : setIdim t = .ok ((), { t with state := t.state.withIdim true }) := rfl
@[simp] theorem clearIdim_run (t : Transaction) :
    clearIdim t = .ok ((), { t with state := t.state.withIdim false }) := rfl
@[simp] theorem advancePc_run (t : Transaction) :
    advancePc t = .ok ((), { t with state := t.state.withPc (t.state.pc + 1#32) }) := rfl

/-- The opcode byte read is total: it gives the byte at `a`, 0x00 and a report where `a` is unmapped (R44). -/
@[simp] theorem memReadByte_run (a : Word) (t : Transaction) :
    memReadByte a t = .ok (t.state.readByte a, t.noted (t.state.byteReport a)) := rfl

/-- The check of a word access refuses exactly the accesses that R48 refuses. -/
theorem checkWord_run (a : Word) (t : Transaction) :
    checkWord a t = if t.state.wordDefined a then .ok ((), t.noted (t.state.wordReport a))
      else .error (.wordNotContained a) := by
  unfold checkWord
  rw [bind_run, current_run]
  cases h : t.state.wordDefined a <;> simp [h]

/-- Everything a word read can do (R45, R48). -/
@[simp] theorem memReadWord_run (a : Word) (t : Transaction) :
    memReadWord a t = if t.state.wordDefined a then .ok (t.state.readWord a, t.noted (t.state.wordReport a))
      else .error (.wordNotContained a) := by
  unfold memReadWord
  rw [bind_run, checkWord_run]
  cases t.state.wordDefined a <;> rfl

/-- Everything a word write can do (R46, R48). -/
@[simp] theorem memWriteWord_run (a v : Word) (t : Transaction) :
    memWriteWord a v t =
      if t.state.wordDefined a then .ok ((), ⟨t.state.writeWord a v, t.reported.union (t.state.wordReport a)⟩)
      else .error (.wordNotContained a) := by
  unfold memWriteWord
  rw [bind_run, checkWord_run]
  cases t.state.wordDefined a <;> rfl

/-- Everything a push can do (R23). -/
@[simp] theorem push_run (v : Word) (t : Transaction) :
    push v t = if t.state.wordDefined (t.state.sp - 4#32) then
        .ok ((), ⟨(t.state.writeWord (t.state.sp - 4#32) v).withSp (t.state.sp - 4#32),
          t.reported.union (t.state.wordReport (t.state.sp - 4#32))⟩)
      else .error (.wordNotContained (t.state.sp - 4#32)) := by
  simp only [push, bind_run, readSp_run, writeSp_run, memWriteWord_run]
  rfl

/-- Everything a pop can do (R23). -/
@[simp] theorem pop_run (t : Transaction) :
    pop t = if t.state.wordDefined t.state.sp then
        .ok (t.state.readWord t.state.sp, ⟨t.state.withSp (t.state.sp + 4#32), t.reported.union (t.state.wordReport t.state.sp)⟩)
      else .error (.wordNotContained t.state.sp) := by
  simp only [pop, bind_run, readSp_run, memReadWord_run]
  cases t.state.wordDefined t.state.sp <;> rfl

/-- Everything a peek can do (R23). -/
@[simp] theorem top_run (t : Transaction) :
    top t = if t.state.wordDefined t.state.sp then .ok (t.state.readWord t.state.sp, t.noted (t.state.wordReport t.state.sp))
      else .error (.wordNotContained t.state.sp) := by
  simp only [top, bind_run, readSp_run, memReadWord_run]

/-- Everything a replacement of the top can do (R23). -/
@[simp] theorem setTop_run (v : Word) (t : Transaction) :
    setTop v t = if t.state.wordDefined t.state.sp then
        .ok ((), ⟨t.state.writeWord t.state.sp v, t.reported.union (t.state.wordReport t.state.sp)⟩)
      else .error (.wordNotContained t.state.sp) := by
  simp only [setTop, bind_run, readSp_run, memWriteWord_run]

end Sys2Proof.Machine
end

