-- ==== Sys2Proof/Laws/Alignment.lean ====
section
/-! SUPPORT. The low two bits of an address: moving by words keeps them. -/

namespace Sys2Proof.Machine

theorem wordAligned_iff (a : Word) : wordAligned a = true ↔ a.toNat % 4 = 0 := by
  unfold wordAligned
  rw [decide_eq_true_iff, ← BitVec.toNat_inj]
  simp [BitVec.extractLsb']

theorem wordAligned_congr (a b : Word) (h : a.toNat % 4 = b.toNat % 4) : wordAligned a = wordAligned b := by
  rw [Bool.eq_iff_iff, wordAligned_iff, wordAligned_iff, h]

@[simp] theorem wordAligned_add_four (a : Word) : wordAligned (a + 4#32) = wordAligned a :=
  wordAligned_congr _ _ (by simp only [BitVec.toNat_add, BitVec.toNat_ofNat]; omega)

@[simp] theorem wordAligned_sub_four (a : Word) : wordAligned (a - 4#32) = wordAligned a :=
  wordAligned_congr _ _ (by simp only [BitVec.toNat_sub, BitVec.toNat_ofNat]; omega)

@[simp] theorem wordAligned_stackAddress (sp : Word) (k : Nat) : wordAligned (stackAddress sp k) = wordAligned sp :=
  wordAligned_congr _ _ (by simp only [stackAddress, wordSize, BitVec.toNat_add, BitVec.toNat_ofNat]; omega)

end Sys2Proof.Machine
end

