-- ==== Sys2Proof/Laws/Blocks.lean ====
section
/-! SUPPORT. One lemma per instruction: everything its block can do from a transaction, refusals included; and `exec` as the
committed block. -/

namespace Sys2Proof.Machine

/-- What a refused word access at `a` makes of a block. -/
abbrev stopAt (a : Word) : Except Refusal (Unit × Transaction) := .error (.wordNotContained a)

variable (t : Transaction)

theorem imBlock_run (p : BitVec 7) :
    imBlock p t =
      if t.state.idim then
        if t.state.wordDefined t.state.sp then
          .ok ((), ⟨((t.state.writeWord t.state.sp (imExtend (t.state.readWord t.state.sp) p)).withIdim true).withPc
            (t.state.pc + 1#32), t.reported.union (t.state.wordReport t.state.sp)⟩)
        else stopAt t.state.sp
      else if t.state.wordDefined (t.state.sp - 4#32) then
        .ok ((), ⟨(((t.state.writeWord (t.state.sp - 4#32) (imStart p)).withSp (t.state.sp - 4#32)).withIdim true).withPc
          (t.state.pc + 1#32), t.reported.union (t.state.wordReport (t.state.sp - 4#32))⟩)
      else stopAt (t.state.sp - 4#32) := by
  simp only [imBlock, bind_run, readIdim_run]
  cases t.state.idim
  · by_cases h : t.state.wordDefined (t.state.sp - 4#32) = true <;> simp [h]
  · by_cases h : t.state.wordDefined t.state.sp = true <;> simp [h, union_assoc]

theorem storespBlock_run (k : Nat) :
    storespBlock k t =
      if t.state.wordDefined t.state.sp then
        if t.state.wordDefined (stackAddress t.state.sp k) then
          .ok ((), ⟨(((t.state.writeWord (stackAddress t.state.sp k) (t.state.readWord t.state.sp)).withSp
            (t.state.sp + 4#32)).withIdim false).withPc (t.state.pc + 1#32),
            (t.reported.union (t.state.wordReport t.state.sp)).union (t.state.wordReport (stackAddress t.state.sp k))⟩)
        else stopAt (stackAddress t.state.sp k)
      else stopAt t.state.sp := by
  by_cases h : t.state.wordDefined t.state.sp = true <;>
    by_cases h' : t.state.wordDefined (stackAddress t.state.sp k) = true <;> simp [storespBlock, h, h']
  rfl

theorem loadspBlock_run (k : Nat) :
    loadspBlock k t =
      if t.state.wordDefined (stackAddress t.state.sp k) then
        if t.state.wordDefined (t.state.sp - 4#32) then
          .ok ((), ⟨(((t.state.writeWord (t.state.sp - 4#32) (t.state.readWord (stackAddress t.state.sp k))).withSp
            (t.state.sp - 4#32)).withIdim false).withPc (t.state.pc + 1#32),
            (t.reported.union (t.state.wordReport (stackAddress t.state.sp k))).union
              (t.state.wordReport (t.state.sp - 4#32))⟩)
        else stopAt (t.state.sp - 4#32)
      else stopAt (stackAddress t.state.sp k) := by
  by_cases h : t.state.wordDefined (stackAddress t.state.sp k) = true <;>
    by_cases h' : t.state.wordDefined (t.state.sp - 4#32) = true <;> simp [loadspBlock, h, h']

theorem addspBlock_run (g : Nat) :
    addspBlock g t =
      if t.state.wordDefined t.state.sp then
        if t.state.wordDefined (stackAddress t.state.sp g) then
          .ok ((), ⟨((t.state.writeWord t.state.sp
            (t.state.readWord t.state.sp + t.state.readWord (stackAddress t.state.sp g))).withIdim false).withPc
            (t.state.pc + 1#32),
            ((t.reported.union (t.state.wordReport t.state.sp)).union
              (t.state.wordReport (stackAddress t.state.sp g))).union (t.state.wordReport t.state.sp)⟩)
        else stopAt (stackAddress t.state.sp g)
      else stopAt t.state.sp := by
  by_cases h : t.state.wordDefined t.state.sp = true <;>
    by_cases h' : t.state.wordDefined (stackAddress t.state.sp g) = true <;> simp [addspBlock, h, h']

theorem emulateBlock_run (n : Nat) :
    emulateBlock n t =
      if t.state.wordDefined (t.state.sp - 4#32) then
        .ok ((), ⟨(((t.state.writeWord (t.state.sp - 4#32) (t.state.pc + 1#32)).withSp (t.state.sp - 4#32)).withIdim false).withPc
          (slotAddress n), t.reported.union (t.state.wordReport (t.state.sp - 4#32))⟩)
      else stopAt (t.state.sp - 4#32) := by
  by_cases h : t.state.wordDefined (t.state.sp - 4#32) = true <;> simp [emulateBlock, h]

theorem poppcBlock_run :
    poppcBlock t =
      if t.state.wordDefined t.state.sp then
        .ok ((), ⟨((t.state.withSp (t.state.sp + 4#32)).withIdim false).withPc (t.state.readWord t.state.sp),
          t.reported.union (t.state.wordReport t.state.sp)⟩)
      else stopAt t.state.sp := by
  by_cases h : t.state.wordDefined t.state.sp = true <;> simp [poppcBlock, h]

theorem loadBlock_run :
    loadBlock t =
      if t.state.wordDefined t.state.sp then
        if t.state.wordDefined (t.state.readWord t.state.sp) then
          .ok ((), ⟨((t.state.writeWord t.state.sp (t.state.readWord (t.state.readWord t.state.sp))).withIdim
            false).withPc (t.state.pc + 1#32),
            ((t.reported.union (t.state.wordReport t.state.sp)).union
              (t.state.wordReport (t.state.readWord t.state.sp))).union (t.state.wordReport t.state.sp)⟩)
        else stopAt (t.state.readWord t.state.sp)
      else stopAt t.state.sp := by
  by_cases h : t.state.wordDefined t.state.sp = true <;>
    by_cases h' : t.state.wordDefined (t.state.readWord t.state.sp) = true <;> simp [loadBlock, h, h']

theorem storeBlock_run :
    storeBlock t =
      if t.state.wordDefined t.state.sp then
        if t.state.wordDefined (t.state.sp + 4#32) then
          if t.state.wordDefined (t.state.readWord t.state.sp) then
            .ok ((), ⟨(((t.state.writeWord (t.state.readWord t.state.sp) (t.state.readWord (t.state.sp + 4#32))).withSp
              (t.state.sp + 8#32)).withIdim false).withPc (t.state.pc + 1#32),
              ((t.reported.union (t.state.wordReport t.state.sp)).union (t.state.wordReport (t.state.sp + 4#32))).union
                (t.state.wordReport (t.state.readWord t.state.sp))⟩)
          else stopAt (t.state.readWord t.state.sp)
        else stopAt (t.state.sp + 4#32)
      else stopAt t.state.sp := by
  have hsp : t.state.sp + 4#32 + 4#32 = t.state.sp + 8#32 := by rw [BitVec.add_assoc]; rfl
  by_cases h : t.state.wordDefined t.state.sp = true <;>
    by_cases h' : t.state.wordDefined (t.state.sp + 4#32) = true <;>
    by_cases h'' : t.state.wordDefined (t.state.readWord t.state.sp) = true <;> simp [storeBlock, h, h', h'', hsp]
  rfl

theorem pushspBlock_run :
    pushspBlock t =
      if t.state.wordDefined (t.state.sp - 4#32) then
        .ok ((), ⟨(((t.state.writeWord (t.state.sp - 4#32) t.state.sp).withSp (t.state.sp - 4#32)).withIdim false).withPc
          (t.state.pc + 1#32), t.reported.union (t.state.wordReport (t.state.sp - 4#32))⟩)
      else stopAt (t.state.sp - 4#32) := by
  by_cases h : t.state.wordDefined (t.state.sp - 4#32) = true <;> simp [pushspBlock, h]

theorem popspBlock_run :
    popspBlock t =
      if t.state.wordDefined t.state.sp then
        .ok ((), ⟨((t.state.withSp (t.state.readWord t.state.sp)).withIdim false).withPc (t.state.pc + 1#32),
          t.reported.union (t.state.wordReport t.state.sp)⟩)
      else stopAt t.state.sp := by
  by_cases h : t.state.wordDefined t.state.sp = true <;> simp [popspBlock, h]

/-- What ADD, AND and OR can do. -/
theorem binaryBlock_run (op : Word → Word → Word) :
    binaryBlock op t =
      if t.state.wordDefined t.state.sp then
        if t.state.wordDefined (t.state.sp + 4#32) then
          .ok ((), ⟨(((t.state.writeWord (t.state.sp + 4#32)
            (op (t.state.readWord t.state.sp) (t.state.readWord (t.state.sp + 4#32)))).withSp (t.state.sp + 4#32)).withIdim
            false).withPc (t.state.pc + 1#32),
            (t.reported.union (t.state.wordReport t.state.sp)).union (t.state.wordReport (t.state.sp + 4#32))⟩)
        else stopAt (t.state.sp + 4#32)
      else stopAt t.state.sp := by
  by_cases h : t.state.wordDefined t.state.sp = true <;>
    by_cases h' : t.state.wordDefined (t.state.sp + 4#32) = true <;> simp [binaryBlock, h, h', union_assoc]
  rfl

/-- What NOT and FLIP can do. -/
theorem unaryBlock_run (op : Word → Word) :
    unaryBlock op t =
      if t.state.wordDefined t.state.sp then
        .ok ((), ⟨((t.state.writeWord t.state.sp (op (t.state.readWord t.state.sp))).withIdim false).withPc
          (t.state.pc + 1#32), t.reported.union (t.state.wordReport t.state.sp)⟩)
      else stopAt t.state.sp := by
  by_cases h : t.state.wordDefined t.state.sp = true <;> simp [unaryBlock, h, union_assoc]

theorem nopBlock_run :
    nopBlock t = .ok ((), ⟨(t.state.withIdim false).withPc (t.state.pc + 1#32), t.reported⟩) := by
  simp [nopBlock]

theorem breakpointBlock_run :
    breakpointBlock t = .ok ((), ⟨t.state.withPc (t.state.pc + 1#32), t.reported⟩) := by
  simp [breakpointBlock]

theorem unsupportedBlock_run :
    unsupportedBlock t =
      .ok ((), ⟨t.state.withPc (t.state.pc + 1#32), t.reported.union (Report.single .unknownOpcode)⟩) := by
  simp [unsupportedBlock]

/-- The meaning of every instruction is its block, committed. -/
theorem exec_eq_commit (i : Instr) (s : State) : exec i s = commit (blockOf i) s := by
  cases i <;> rfl

/-- A next state comes from a block that ran to its end. -/
theorem blockOf_of_exec_next (i : Instr) (s u : State) (h : exec i s = .next u) :
    ∃ r, blockOf i ⟨s, Report.empty⟩ = .ok ((), ⟨u, r⟩) := by
  rw [exec_eq_commit, commit] at h
  split at h
  · next x hx =>
    obtain ⟨v, r⟩ := x
    cases h
    exact ⟨r, hx⟩
  · cases h

/-- What a next state's memory is: as it was, or with one word written at the stored address, which is unmapped or
contained (R32, R48, R58). -/
theorem exec_regions_cases (i : Instr) (s u : State) (h : exec i s = .next u) :
    (storedAddress i s = none ∧ u.regions = s.regions) ∨
      ∃ a v, storedAddress i s = some a ∧ s.wordDefined a = true ∧ u.regions = s.writeWordRegions a v := by
  obtain ⟨r, h⟩ := blockOf_of_exec_next i s u h
  cases i <;>
    simp only [blockOf, imBlock_run, storespBlock_run, loadspBlock_run, addspBlock_run, emulateBlock_run, poppcBlock_run,
      loadBlock_run, storeBlock_run, pushspBlock_run, popspBlock_run, addBlock, andBlock, orBlock, notBlock, flipBlock,
      binaryBlock_run, unaryBlock_run, nopBlock_run, breakpointBlock_run, unsupported01Block, unsupported03Block,
      unsupported0EBlock, unsupported0FBlock, unsupportedBlock_run] at h <;>
    (repeat' split at h) <;> cases h <;> simp_all [storedAddress]

/-- The conditions reported before a block change neither its effect nor its refusal; the block's own are added to them. -/
theorem blockOf_reported (i : Instr) (s : State) (q : Report) :
    blockOf i ⟨s, q⟩ = match blockOf i ⟨s, Report.empty⟩ with
      | .ok (_, u) => .ok ((), ⟨u.state, q.union u.reported⟩)
      | .error e => .error e := by
  have hq : q.union Report.empty = q := by simp [Report.union, Report.empty]
  cases i <;>
    simp only [blockOf, imBlock_run, storespBlock_run, loadspBlock_run, addspBlock_run, emulateBlock_run, poppcBlock_run,
      loadBlock_run, storeBlock_run, pushspBlock_run, popspBlock_run, addBlock, andBlock, orBlock, notBlock, flipBlock,
      binaryBlock_run, unaryBlock_run, nopBlock_run, breakpointBlock_run, unsupported01Block, unsupported03Block,
      unsupported0EBlock, unsupported0FBlock, unsupportedBlock_run] <;>
    (repeat' split) <;> simp_all <;> subst_vars <;> simp [union_assoc]

end Sys2Proof.Machine
end

