-- ==== Sys2Proof/Laws/Invariant.lean ====
section
/-! SUPPORT. Every operation that writes memory keeps it well formed: canonical, with no byte listed outside its region. -/

namespace Sys2Proof.Machine

@[simp] theorem regionSize_setStorageByte (rs : List Region) (i off j : Nat) (b : Byte) :
    regionSize (setStorageByte rs i off b) j = regionSize rs j :=
  regionSize_congr _ _ _ (geometry_setStorageByte rs i off b)

/-- Writing one byte below a region's size keeps it well formed. -/
theorem Region.wf_write (r : Region) (off : Nat) (b : Byte) (h : r.wf) (ho : off < r.size.toNat) :
    Region.wf { r with storage := r.storage.write off b } := by
  refine ⟨Memory.wf_write _ _ _ h.1, fun c hc => ?_⟩
  rcases Memory.mem_write _ _ _ _ hc with rfl | hc
  · exact ho
  · exact h.2 c hc

/-- Setting one byte inside its region keeps every region well formed. -/
theorem wf_setStorageByte (rs : List Region) (i off : Nat) (b : Byte) (h : ∀ r ∈ rs, r.wf) (ho : off < regionSize rs i) :
    ∀ r ∈ setStorageByte rs i off b, r.wf := by
  unfold setStorageByte
  intro r hr
  obtain ⟨j, hj, rfl⟩ := List.getElem_of_mem hr
  have hj' : j < rs.length := by simpa using hj
  have hr := h rs[j] (List.getElem_mem hj')
  rw [List.getElem_modify]
  split
  · next hij =>
    subst hij
    rw [regionSize_of_getElem? rs i rs[i] (by simp [hj'])] at ho
    exact Region.wf_write _ off b hr ho
  · exact hr

/-- A word write that is unmapped or contained keeps memory well formed (R46, R48). -/
theorem wf_writeWord (s : State) (a v : Word) (h : s.memoryWf) (hd : s.wordDefined a = true) : (s.writeWord a v).memoryWf := by
  cases ha : s.translate a with
  | none =>
    unfold State.memoryWf
    rw [State.writeWord, writeWordRegions_unmapped s a v ha]
    exact h
  | some x =>
    obtain ⟨i, off⟩ := x
    simp only [State.wordDefined, ha, decide_eq_true_eq] at hd
    simp only [State.memoryWf, State.writeWord, State.withRegions, State.writeWordRegions, ha]
    refine wf_setStorageByte _ _ _ _ (wf_setStorageByte _ _ _ _ (wf_setStorageByte _ _ _ _
      (wf_setStorageByte _ _ _ _ h ?_) ?_) ?_) ?_ <;> (try simp only [regionSize_setStorageByte]) <;> omega

/-- Placing the byte of the next fetch keeps memory well formed. -/
theorem wf_withFetchByte (s : State) (b : Byte) (h : s.memoryWf) : (s.withFetchByte b).memoryWf := by
  unfold State.withFetchByte
  split
  · next i off ha => exact wf_setStorageByte _ _ _ _ h (translateIn_offset_lt _ _ _ _ ha).2
  · intro r hr
    rcases List.mem_append.1 hr with hr | hr
    · exact h r hr
    · obtain rfl := List.mem_singleton.1 hr
      exact Region.wf_write { base := s.pc, size := 1#32, storage := [] } 0 b ⟨⟨List.Pairwise.nil, nofun⟩, nofun⟩ (by simp)

end Sys2Proof.Machine
end

