-- ==== Sys2Proof/Laws/PerInstr.lean ====
section
/-! SUPPORT. What holds of every instruction as syntax, one lemma a constructor. -/

/-- The byte of a well-formed instruction is selected by the row of R72's list that has the instruction's mnemonic. -/
def Sys2Proof.Laws.EncodingMatchesRow.Statement (i : Sys2Proof.Instr) : Prop :=
  i.WellFormed → ∃ row ∈ Sys2Proof.opcodeRows,
    row.mnemonic = i.mnemonic ∧ row.selects (Sys2Proof.encodeByte i) = true

/-- What the lemmas below check: that one row, named by its place in the list, has the mnemonic and selects the byte. -/
theorem Sys2Proof.Laws.encodingMatchesRow_of_index (i : Sys2Proof.Instr) (n : Fin 21)
    (h : i.WellFormed → Sys2Proof.opcodeRows[n].mnemonic = i.mnemonic ∧
      Sys2Proof.opcodeRows[n].selects (Sys2Proof.encodeByte i) = true) :
    Sys2Proof.Laws.EncodingMatchesRow.Statement i :=
  fun hw => ⟨Sys2Proof.opcodeRows[n], List.getElem_mem _, h hw⟩

theorem Sys2Proof.Laws.EncodingMatchesRow.im (p : BitVec 7) : Statement (.im p) :=
  encodingMatchesRow_of_index _ 0 fun _ => ⟨rfl, by revert p; decide +kernel⟩

theorem Sys2Proof.Laws.EncodingMatchesRow.storesp (k : Nat) : Statement (.storesp k) :=
  encodingMatchesRow_of_index _ 1 fun hw => ⟨rfl, by
    have h : ∀ k < 32, Sys2Proof.opcodeRows[1].selects (Sys2Proof.encodeByte (.storesp k)) = true := by decide
    exact h k (of_decide_eq_true hw)⟩

theorem Sys2Proof.Laws.EncodingMatchesRow.loadsp (k : Nat) : Statement (.loadsp k) :=
  encodingMatchesRow_of_index _ 2 fun hw => ⟨rfl, by
    have h : ∀ k < 32, Sys2Proof.opcodeRows[2].selects (Sys2Proof.encodeByte (.loadsp k)) = true := by decide
    exact h k (of_decide_eq_true hw)⟩

theorem Sys2Proof.Laws.EncodingMatchesRow.addsp (g : Nat) : Statement (.addsp g) :=
  encodingMatchesRow_of_index _ 3 fun hw => ⟨rfl, by
    have h : ∀ g < 16, Sys2Proof.opcodeRows[3].selects (Sys2Proof.encodeByte (.addsp g)) = true := by decide
    exact h g (of_decide_eq_true hw)⟩

theorem Sys2Proof.Laws.EncodingMatchesRow.emulate (n : Nat) : Statement (.emulate n) :=
  encodingMatchesRow_of_index _ 4 fun hw => ⟨rfl, by
    have h : ∀ n < 32, Sys2Proof.opcodeRows[4].selects (Sys2Proof.encodeByte (.emulate n)) = true := by decide
    exact h n (of_decide_eq_true hw)⟩

theorem Sys2Proof.Laws.EncodingMatchesRow.poppc : Statement .poppc :=
  encodingMatchesRow_of_index _ 5 fun _ => ⟨rfl, rfl⟩

theorem Sys2Proof.Laws.EncodingMatchesRow.load : Statement .load :=
  encodingMatchesRow_of_index _ 6 fun _ => ⟨rfl, rfl⟩

theorem Sys2Proof.Laws.EncodingMatchesRow.store : Statement .store :=
  encodingMatchesRow_of_index _ 7 fun _ => ⟨rfl, rfl⟩

theorem Sys2Proof.Laws.EncodingMatchesRow.pushsp : Statement .pushsp :=
  encodingMatchesRow_of_index _ 8 fun _ => ⟨rfl, rfl⟩

theorem Sys2Proof.Laws.EncodingMatchesRow.popsp : Statement .popsp :=
  encodingMatchesRow_of_index _ 9 fun _ => ⟨rfl, rfl⟩

theorem Sys2Proof.Laws.EncodingMatchesRow.add : Statement .add :=
  encodingMatchesRow_of_index _ 10 fun _ => ⟨rfl, rfl⟩

theorem Sys2Proof.Laws.EncodingMatchesRow.and : Statement .and :=
  encodingMatchesRow_of_index _ 11 fun _ => ⟨rfl, rfl⟩

theorem Sys2Proof.Laws.EncodingMatchesRow.or : Statement .or :=
  encodingMatchesRow_of_index _ 12 fun _ => ⟨rfl, rfl⟩

theorem Sys2Proof.Laws.EncodingMatchesRow.not : Statement .not :=
  encodingMatchesRow_of_index _ 13 fun _ => ⟨rfl, rfl⟩

theorem Sys2Proof.Laws.EncodingMatchesRow.flip : Statement .flip :=
  encodingMatchesRow_of_index _ 14 fun _ => ⟨rfl, rfl⟩

theorem Sys2Proof.Laws.EncodingMatchesRow.nop : Statement .nop :=
  encodingMatchesRow_of_index _ 15 fun _ => ⟨rfl, rfl⟩

theorem Sys2Proof.Laws.EncodingMatchesRow.breakpoint : Statement .breakpoint :=
  encodingMatchesRow_of_index _ 16 fun _ => ⟨rfl, rfl⟩

theorem Sys2Proof.Laws.EncodingMatchesRow.unsupported01 : Statement .unsupported01 :=
  encodingMatchesRow_of_index _ 17 fun _ => ⟨rfl, rfl⟩

theorem Sys2Proof.Laws.EncodingMatchesRow.unsupported03 : Statement .unsupported03 :=
  encodingMatchesRow_of_index _ 18 fun _ => ⟨rfl, rfl⟩

theorem Sys2Proof.Laws.EncodingMatchesRow.unsupported0E : Statement .unsupported0E :=
  encodingMatchesRow_of_index _ 19 fun _ => ⟨rfl, rfl⟩

theorem Sys2Proof.Laws.EncodingMatchesRow.unsupported0F : Statement .unsupported0F :=
  encodingMatchesRow_of_index _ 20 fun _ => ⟨rfl, rfl⟩
end

