-- ==== Sys2Proof/Tests/Slice0.lean ====
section
/-! SUPPORT. The model's own tests: ill-formed terms, decoding of bytes written out from the spec's formats, worked examples
and vectors of 95_test_vectors.md (each named beside its test), and for every statement of Obligations.lean that has
hypotheses a concrete state and operands that meet them. Expected values come from the spec or from hand calculation. -/

namespace Sys2Proof.Tests

open Sys2Proof Sys2Proof.Machine

/-! ### Operand ranges: each check of `Instr.wellFormed` refuses the first value past its range (R76, R77) -/

theorem test_wellFormed_refuses_storesp_32 : ¬ (Instr.storesp 32).WellFormed := by decide
theorem test_wellFormed_refuses_loadsp_32 : ¬ (Instr.loadsp 32).WellFormed := by decide
theorem test_wellFormed_refuses_addsp_16 : ¬ (Instr.addsp 16).WellFormed := by decide
theorem test_wellFormed_refuses_emulate_32 : ¬ (Instr.emulate 32).WellFormed := by decide

/-! ### Decoding: bytes written out bit by bit from the formats of R73 and the code values of R79 -/

theorem test_decode_im : decodeByte 0b10000101#8 = .im 0b0000101#7 ∧ decodeByte 0b11111111#8 = .im 0b1111111#7 := by decide
theorem test_decode_storesp : decodeByte 0b01010000#8 = .storesp 0 ∧ decodeByte 0b01001111#8 = .storesp 31 := by decide
theorem test_decode_loadsp : decodeByte 0b01110001#8 = .loadsp 1 ∧ decodeByte 0b01100000#8 = .loadsp 16 := by decide
theorem test_decode_addsp : decodeByte 0b00010000#8 = .addsp 0 ∧ decodeByte 0b00011111#8 = .addsp 15 := by decide
theorem test_decode_emulate : decodeByte 0b00100000#8 = .emulate 0 ∧ decodeByte 0b00111111#8 = .emulate 31 := by decide
theorem test_decode_poppc : decodeByte 0b00000100#8 = .poppc := by decide
theorem test_decode_load : decodeByte 0b00001000#8 = .load := by decide
theorem test_decode_store : decodeByte 0b00001100#8 = .store := by decide
theorem test_decode_pushsp : decodeByte 0b00000010#8 = .pushsp := by decide
theorem test_decode_popsp : decodeByte 0b00001101#8 = .popsp := by decide
theorem test_decode_add : decodeByte 0b00000101#8 = .add := by decide
theorem test_decode_and : decodeByte 0b00000110#8 = .and := by decide
theorem test_decode_or : decodeByte 0b00000111#8 = .or := by decide
theorem test_decode_not : decodeByte 0b00001001#8 = .not := by decide
theorem test_decode_flip : decodeByte 0b00001010#8 = .flip := by decide
theorem test_decode_nop : decodeByte 0b00001011#8 = .nop := by decide
theorem test_decode_breakpoint : decodeByte 0b00000000#8 = .breakpoint := by decide
theorem test_decode_unsupported01 : decodeByte 0b00000001#8 = .unsupported01 := by decide
theorem test_decode_unsupported03 : decodeByte 0b00000011#8 = .unsupported03 := by decide
theorem test_decode_unsupported0E : decodeByte 0b00001110#8 = .unsupported0E := by decide
theorem test_decode_unsupported0F : decodeByte 0b00001111#8 = .unsupported0F := by decide

/-- A table word is one byte; no byte at all is no instruction. -/
theorem test_decodeTableWord : decodeTableWord 8 0x52 = some (.storesp 2) ∧ decodeTableWord 0 0 = none := by decide

/-- R82's examples of CONST. -/
theorem test_const_bytes :
    constBytes 0x00000040#32 = [0x80#8, 0xC0#8] ∧ constBytes 0x00008000#32 = [0x82#8, 0x80#8, 0x80#8] ∧
    constBytes 0x80000000#32 = [0xF8#8, 0x80#8, 0x80#8, 0x80#8, 0x80#8] := by decide

/-! ### One step on a small machine -/

/-- The conventional platform of 95_test_vectors.md, one region `[0, 0x10000)`, with these registers, these words in
memory and this byte at `pc`. -/
def machine (cfg : Config) (pc sp : Word) (idim : Bool) (op : Byte) (words : List (Word × Word)) : State :=
  State.withFetchByte (words.foldl (fun (s : State) w => s.writeWord w.1 w.2) { State.reset with cfg, pc, sp, idim }) op

/-- What a test looks at: `pc`, `sp`, `idim` and one word after the step; `none` if the step has no next state. -/
def view (a : Word) (o : Host.Outcome State Fault Refusal) : Option (Word × Word × Bool × Word) :=
  match o with
  | .next t => some (t.pc, t.sp, t.idim, t.readWord a)
  | .fault _ => none
  | .refused _ => none

abbrev be : Config := Config.conventional
abbrev le : Config := { Config.conventional with byteOrder := .le }

/-- V-IM-3 -/
theorem test_im_pushes_sign_extended :
    view 0xFFEC#32 (step (machine be 0x0#32 0xFFF0#32 false 0xC0#8 [])) =
      some (0x1#32, 0xFFEC#32, true, 0xFFFFFFC0#32) := by decide

/-- V-IM-5 -/
theorem test_im_extends :
    view 0xFFF0#32 (step (machine be 0x0#32 0xFFF0#32 true 0x85#8 [(0xFFF0#32, 0x3#32)])) =
      some (0x1#32, 0xFFF0#32, true, 0x185#32) := by decide

/-- V-SS-1 -/
theorem test_storesp_0_drops :
    view 0xFFF0#32 (step (machine be 0x0#32 0xFFF0#32 false 0x50#8 [(0xFFF0#32, 0x11111111#32)])) =
      some (0x1#32, 0xFFF4#32, false, 0x11111111#32) := by decide

/-- V-SS-5 -/
theorem test_storesp_31 :
    view 0xFF7C#32 (step (machine be 0x0#32 0xFF00#32 false 0x4F#8 [(0xFF00#32, 0xCAFEF00D#32)])) =
      some (0x1#32, 0xFF04#32, false, 0xCAFEF00D#32) := by decide

/-- V-LS-2, with `idim` set as in V-LS-8 -/
theorem test_loadsp_1 :
    view 0xFFEC#32 (step (machine be 0x0#32 0xFFF0#32 true 0x71#8
      [(0xFFF0#32, 0x11111111#32), (0xFFF4#32, 0x22222222#32)])) =
      some (0x1#32, 0xFFEC#32, false, 0x22222222#32) := by decide

/-- V-LS-7: from an unmapped address it pushes 0. -/
theorem test_loadsp_unmapped :
    view 0xFFEC#32 (step (machine be 0x0#32 0xFFF0#32 false 0x74#8 [(0xFFEC#32, 0xAAAAAAAA#32)])) =
      some (0x1#32, 0xFFEC#32, false, 0x0#32) := by decide

/-- V-AS-3 -/
theorem test_addsp_15_wraps :
    view 0xFF00#32 (step (machine be 0x0#32 0xFF00#32 false 0x1F#8 [(0xFF00#32, 0x1#32), (0xFF3C#32, 0xFFFFFFFF#32)])) =
      some (0x1#32, 0xFF00#32, false, 0x0#32) := by decide

/-- V-EM-2 -/
theorem test_emulate_31 :
    view 0xFFEC#32 (step (machine be 0x500#32 0xFFF0#32 true 0x3F#8 [])) =
      some (0x3E0#32, 0xFFEC#32, false, 0x501#32) := by decide

/-- V-PC-1 -/
theorem test_poppc :
    view 0xFFF0#32 (step (machine be 0x100#32 0xFFF0#32 false 0x04#8 [(0xFFF0#32, 0x400#32)])) =
      some (0x400#32, 0xFFF4#32, false, 0x400#32) := by decide

/-- V-PC-3: from an unmapped stack it jumps to 0. -/
theorem test_poppc_unmapped :
    view 0x0#32 (step (machine be 0x100#32 0x10000#32 true 0x04#8 [])) =
      some (0x0#32, 0x10004#32, false, 0x0#32) := by decide

/-- V-LD-4 -/
theorem test_load_misaligned_be :
    view 0xFFF0#32 (step (machine be 0x0#32 0xFFF0#32 false 0x08#8
      [(0xFFF0#32, 0x8001#32), (0x8000#32, 0x11223344#32), (0x8004#32, 0x55667788#32)])) =
      some (0x1#32, 0xFFF0#32, false, 0x22334455#32) := by decide

/-- V-LD-5 -/
theorem test_load_misaligned_le :
    view 0xFFF0#32 (step (machine le 0x0#32 0xFFF0#32 false 0x08#8
      [(0xFFF0#32, 0x8001#32), (0x8000#32, 0x11223344#32), (0x8004#32, 0x55667788#32)])) =
      some (0x1#32, 0xFFF0#32, false, 0x88112233#32) := by decide

/-- V-ST-3: both reads precede the write. -/
theorem test_store_onto_its_address_slot :
    view 0xFFF0#32 (step (machine be 0x0#32 0xFFF0#32 false 0x0C#8 [(0xFFF0#32, 0xFFF0#32), (0xFFF4#32, 0xDEADBEEF#32)])) =
      some (0x1#32, 0xFFF8#32, false, 0xDEADBEEF#32) := by decide

/-- V-ST-4: the word at 0x8004 after a misaligned store at 0x8002. -/
theorem test_store_misaligned :
    view 0x8004#32 (step (machine be 0x0#32 0xFFF0#32 false 0x0C#8
      [(0xFFF0#32, 0x8002#32), (0xFFF4#32, 0xA1B2C3D4#32), (0x8000#32, 0x11223344#32), (0x8004#32, 0x55667788#32)])) =
      some (0x1#32, 0xFFF8#32, false, 0xC3D47788#32) := by decide

/-- V-PS-1 -/
theorem test_pushsp :
    view 0xFFEC#32 (step (machine be 0x0#32 0xFFF0#32 false 0x02#8 [])) =
      some (0x1#32, 0xFFEC#32, false, 0xFFF0#32) := by decide

/-- V-PS-3 -/
theorem test_popsp :
    view 0xFFF0#32 (step (machine be 0x0#32 0xFFF0#32 true 0x0D#8 [(0xFFF0#32, 0x8000#32)])) =
      some (0x1#32, 0x8000#32, false, 0x8000#32) := by decide

/-- V-AL-2 -/
theorem test_add_wraps :
    view 0xFFF4#32 (step (machine be 0x0#32 0xFFF0#32 false 0x05#8 [(0xFFF0#32, 0xFFFFFFFF#32), (0xFFF4#32, 0x1#32)])) =
      some (0x1#32, 0xFFF4#32, false, 0x0#32) := by decide

/-- V-AL-5 -/
theorem test_and :
    view 0xFFF4#32 (step (machine be 0x0#32 0xFFF0#32 false 0x06#8 [(0xFFF0#32, 0xFF0F#32), (0xFFF4#32, 0x12345678#32)])) =
      some (0x1#32, 0xFFF4#32, false, 0x5608#32) := by decide

/-- V-AL-6 -/
theorem test_or :
    view 0xFFF4#32 (step (machine be 0x0#32 0xFFF0#32 false 0x07#8 [(0xFFF0#32, 0xFF0F#32), (0xFFF4#32, 0x12345678#32)])) =
      some (0x1#32, 0xFFF4#32, false, 0x1234FF7F#32) := by decide

/-- V-AL-9 -/
theorem test_not :
    view 0xFFF0#32 (step (machine be 0x0#32 0xFFF0#32 true 0x09#8 [])) =
      some (0x1#32, 0xFFF0#32, false, 0xFFFFFFFF#32) := by decide

/-- V-AL-10 -/
theorem test_flip :
    view 0xFFF0#32 (step (machine be 0x0#32 0xFFF0#32 false 0x0A#8 [(0xFFF0#32, 0x12345678#32)])) =
      some (0x1#32, 0xFFF0#32, false, 0x1E6A2C48#32) := by decide +kernel

/-- V-NOP-2 -/
theorem test_nop_clears_idim :
    view 0xFFF0#32 (step (machine be 0x0#32 0xFFF0#32 true 0x0B#8 [])) =
      some (0x1#32, 0xFFF0#32, false, 0x0#32) := by decide

/-- V-BP-4 -/
theorem test_breakpoint_keeps_idim :
    view 0xFFF0#32 (step (machine be 0x0#32 0xFFF0#32 true 0x00#8 [])) =
      some (0x1#32, 0xFFF0#32, true, 0x0#32) := by decide

/-- V-UN-6: an unmapped fetch executes as BREAKPOINT; here at the top address, where `pc` wraps (R21). -/
theorem test_unmapped_fetch_is_breakpoint :
    view 0x0#32 (step { State.reset with pc := 0xFFFFFFFF#32 }) = some (0x0#32, 0x10000#32, false, 0x0#32) := by
  decide

/-- V-UN-1 to V-UN-4 -/
theorem test_unsupported_bytes_keep_idim :
    ([0x01#8, 0x03#8, 0x0E#8, 0x0F#8].all fun op =>
      view 0xFFF0#32 (step (machine be 0x0#32 0xFFF0#32 true op [(0xFFF0#32, 0x11111111#32)])) =
        some (0x1#32, 0xFFF0#32, true, 0x11111111#32)) = true := by decide

/-! ### The address translator, the refusal, the status and reset -/

/-- A machine with these regions, all storage zero. -/
def platform (regions : List (Word × Word)) : State :=
  { State.reset with regions := regions.map fun g => { base := g.1, size := g.2, storage := [] } }

/-- V-MEM-7: of two overlapping regions the earlier wins. -/
theorem test_translate_overlap :
    let s := platform [(0x0#32, 0x100#32), (0x80#32, 0x100#32)]
    s.translate 0x90#32 = some (0, 0x90) ∧ s.translate 0x100#32 = some (1, 0x80) ∧ s.translate 0x17F#32 = some (1, 0xFF) ∧
      s.translate 0x180#32 = none := by decide

/-- V-MEM-5, V-MEM-11: containment, and no access continues into the adjacent region. -/
theorem test_word_containment :
    let s := platform [(0x0#32, 0x1000#32), (0x1000#32, 0x1000#32)]
    s.wordDefined 0xFFC#32 = true ∧ s.wordDefined 0xFFD#32 = false ∧ s.wordDefined 0xFFE#32 = false ∧
      s.wordDefined 0x1000#32 = true ∧ s.wordDefined 0x2000#32 = true := by decide

/-- V-MEM-9: the region that crosses 2^32. -/
theorem test_translate_across_the_top :
    let s := platform [(0x0#32, 0x10000#32), (0xFFFFFF00#32, 0x200#32)]
    s.translate 0xFFFFFFFF#32 = some (1, 0xFF) ∧ s.translate 0x10#32 = some (0, 0x10) ∧
      s.wordDefined 0xFFFFFFFD#32 = true := by decide

/-- V-MEM-3, V-MEM-2: the bytes of a stored word in either byte order. -/
theorem test_stored_bytes :
    let t := (machine le 0x0#32 0x0#32 false 0x00#8 []).writeWord 0x100#32 0x11223344#32
    let u := (machine be 0x0#32 0x0#32 false 0x00#8 []).writeWord 0x100#32 0x11223344#32
    t.readByte 0x100#32 = 0x44#8 ∧ t.readByte 0x103#32 = 0x11#8 ∧ u.readByte 0x100#32 = 0x11#8 := by decide

/-- R48: a pop at the last byte but two of the region is refused, by name. -/
theorem test_uncontained_word_is_refused :
    exec .popsp { State.reset with sp := 0xFFFD#32 } = .refused (.wordNotContained 0xFFFD#32) := by rfl

/-- The configuration of the vectors with STRICT and ALIGN_CHECK. -/
abbrev strictAligned : Config := { Config.conventional with strict := true, alignCheck := true }

/-- V-STR-2, V-STR-4, V-STR-8 -/
theorem test_status :
    stepStatus (machine strictAligned 0x0#32 0xFFF0#32 true 0x0E#8 []) = .ok 0b100#3 ∧
    stepStatus { State.reset with cfg := strictAligned, pc := 0x20000#32 } = .ok 0b001#3 ∧
    stepStatus (machine strictAligned 0x0#32 0xFFF0#32 false 0x08#8 [(0xFFF0#32, 0x20002#32)]) = .ok 0b011#3 := by
  decide

/-- V-RST-2: construction validates nothing; the first step is a BREAKPOINT. -/
theorem test_construction_validates_nothing :
    State.construct { Config.conventional with resetPc := 0x12345677#32, resetSp := 0x2#32 } conventionalRegions =
      some { State.reset with
        cfg := { Config.conventional with resetPc := 0x12345677#32, resetSp := 0x2#32 },
        pc := 0x12345677#32, sp := 0x2#32 } := by decide

/-- V-RST-3 -/
theorem test_flags_view :
    State.flags { State.reset with idim := true } = 0x01#8 ∧
    State.flags { State.reset with idim := true, cfg := { Config.conventional with idimBit := 7 } } = 0x80#8 := by decide

/-- `withFetchWord` puts a table word where the first step after reset fetches it, mapped or not. -/
theorem test_withFetchWord :
    (State.reset.withFetchWord 8 0x52).fetchInstr = .storesp 2 ∧
    (State.withFetchWord { State.reset with pc := 0x20000#32 } 8 0x0B).fetchInstr = .nop := by decide

/-! ### Witnesses: concrete states and operands that meet the hypotheses of the statements, clause by clause -/

/-- The conventional platform with this `sp`, all storage zero, and this byte at `pc` = 0. -/
def spOp (sp : Word) (op : Byte) : State := State.withFetchByte (State.reset.withSp sp) op

/-- The stack S4 of 95_test_vectors.md: four words from 0xFFF0 up to the region's last word. -/
def stack4 : State :=
  machine be 0x0#32 0xFFF0#32 false 0x00#8
    [(0xFFF0#32, 0x11111111#32), (0xFFF4#32, 0x22222222#32), (0xFFF8#32, 0x33333333#32), (0xFFFC#32, 0x44444444#32)]

/-- An address and a value for LOAD and STORE: 0x8000, and 0xDEADBEEF. -/
def addressed : State := machine be 0x0#32 0xFFF0#32 false 0x0C#8 [(0xFFF0#32, 0x8000#32), (0xFFF4#32, 0xDEADBEEF#32)]

/-- A pop from here is not contained in the region. -/
def uncontained : State := spOp 0xFFFD#32 0x0D#8

theorem witness_DecodeInvertsEncode :
    (Instr.im 0x7F#7).WellFormed ∧ (Instr.storesp 31).WellFormed ∧ (Instr.loadsp 0).WellFormed ∧
    (Instr.addsp 15).WellFormed ∧ (Instr.emulate 31).WellFormed ∧ Instr.flip.WellFormed := by decide

theorem witness_StepRunsTheDecodedInstruction :
    decode [(spOp 0xFF00#32 0x4F#8).readByte (spOp 0xFF00#32 0x4F#8).pc] = .ok (.storesp 31, []) ∧
    (Instr.storesp 31).WellFormed := by decide

theorem witness_StepReportsFetchAndInstruction :
    execReport stack4.fetchInstr stack4 = .ok {} ∧
    execReport uncontained.fetchInstr uncontained = .error (.wordNotContained 0xFFFD#32) := by decide

theorem witness_ImPushesOrExtends :
    0xFF#8 &&& 0x80#8 = 0x80#8 ∧
    (State.reset.idim = false ∧ State.reset.wordDefined (State.reset.sp - 4#32) = true) ∧
    ((stack4.withIdim true).idim = true ∧ (stack4.withIdim true).wordDefined (stack4.withIdim true).sp = true) ∧
    (spOp 0x10000#32 0xFF#8).fetchInstr = .im 0x7F#7 := by decide

theorem witness_StorespStoresThePoppedWord :
    0x40#8 &&& 0xE0#8 = 0x40#8 ∧ 0x5F#8 &&& 0xE0#8 = 0x40#8 ∧ stack4.wordDefined stack4.sp = true ∧
    stack4.wordDefined (stack4.sp + BitVec.ofNat 32 (4 * 3)) = true ∧
    stack4.wordDefined (stack4.sp + BitVec.ofNat 32 (4 * 31)) = true := by decide

theorem witness_LoadspPushesTheOffsetWord :
    0x60#8 &&& 0xE0#8 = 0x60#8 ∧ 0x7F#8 &&& 0xE0#8 = 0x60#8 ∧ stack4.wordDefined (stack4.sp - 4#32) = true ∧
    stack4.wordDefined (stack4.sp + BitVec.ofNat 32 (4 * 0)) = true ∧
    stack4.wordDefined (stack4.sp + BitVec.ofNat 32 (4 * 31)) = true := by decide

theorem witness_AddspAddsTheOffsetWord :
    0x10#8 &&& 0xF0#8 = 0x10#8 ∧ 0x1F#8 &&& 0xF0#8 = 0x10#8 ∧ stack4.wordDefined stack4.sp = true ∧
    stack4.wordDefined (stack4.sp + BitVec.ofNat 32 (4 * 3)) = true ∧
    stack4.wordDefined (stack4.sp + BitVec.ofNat 32 (4 * 15)) = true := by decide

theorem witness_EmulateCallsItsSlot :
    0x20#8 &&& 0xE0#8 = 0x20#8 ∧ 0x3F#8 &&& 0xE0#8 = 0x20#8 ∧
    State.reset.wordDefined (State.reset.sp - 4#32) = true := by decide

theorem witness_PoppcJumpsToThePoppedWord : stack4.wordDefined stack4.sp = true := by decide

theorem witness_LoadReplacesTheAddressByItsWord :
    addressed.wordDefined addressed.sp = true ∧ addressed.wordDefined (addressed.readWord addressed.sp) = true := by decide

theorem witness_StoreWritesTheSecondWordAtTheFirst :
    addressed.wordDefined addressed.sp = true ∧ addressed.wordDefined (addressed.sp + 4#32) = true ∧
    addressed.wordDefined (addressed.readWord addressed.sp) = true := by decide

theorem witness_PushspPushesTheOldSp : State.reset.wordDefined (State.reset.sp - 4#32) = true := by decide
theorem witness_PopspReplacesSpByTheTopWord : stack4.wordDefined stack4.sp = true := by decide

/-- Both operands in the region. -/
theorem witness_AddReplacesTheTopTwoWordsByTheirSum :
    stack4.wordDefined stack4.sp = true ∧ stack4.wordDefined (stack4.sp + 4#32) = true := by decide

/-- The first operand the region's last word, the second unmapped. -/
theorem witness_AndReplacesTheTopTwoWordsByTheirConjunction :
    (spOp 0xFFFC#32 0x06#8).wordDefined (spOp 0xFFFC#32 0x06#8).sp = true ∧
    (spOp 0xFFFC#32 0x06#8).wordDefined ((spOp 0xFFFC#32 0x06#8).sp + 4#32) = true := by decide

/-- The first operand unmapped, the second at address 0. -/
theorem witness_OrReplacesTheTopTwoWordsByTheirDisjunction :
    (spOp 0xFFFFFFFC#32 0x07#8).wordDefined (spOp 0xFFFFFFFC#32 0x07#8).sp = true ∧
    (spOp 0xFFFFFFFC#32 0x07#8).wordDefined ((spOp 0xFFFFFFFC#32 0x07#8).sp + 4#32) = true := by decide

theorem witness_NotInvertsTheTopWord : stack4.wordDefined stack4.sp = true := by decide
theorem witness_FlipReversesTheTopWord : stack4.wordDefined stack4.sp = true := by decide
theorem witness_NopClearsIdim : (spOp 0x10000#32 0x0B#8).fetchByte = 0x0B#8 := by decide

theorem witness_BreakpointOnlyAdvancesPc :
    State.mapped { State.reset with pc := 0x10000#32 } 0x10000#32 = false ∧ State.reset.fetchByte = 0x00#8 := by decide

theorem witness_UnsupportedBytesOnlyAdvancePc :
    (spOp 0x10000#32 0x01#8).fetchInstr = .unsupported01 ∧ (spOp 0x10000#32 0x03#8).fetchInstr = .unsupported03 ∧
    (spOp 0x10000#32 0x0E#8).fetchInstr = .unsupported0E ∧ (spOp 0x10000#32 0x0F#8).fetchInstr = .unsupported0F := by decide

/-- The overlapping regions of V-MEM-7, the empty region of V-MEM-10, the region across 2^32 of V-MEM-9. -/
theorem witness_EarlierRegionWinsAndDegenerateRegionsMatchLittle :
    (Region.matchesAddress ⟨0x0#32, 0x100#32, []⟩ 0x90#32 = true ∧
      Region.matchesAddress ⟨0x80#32, 0x100#32, []⟩ 0x90#32 = true ∧
      (platform [(0x0#32, 0x100#32), (0x80#32, 0x100#32)]).regions[0]? = some ⟨0x0#32, 0x100#32, []⟩ ∧
      (platform [(0x0#32, 0x100#32), (0x80#32, 0x100#32)]).regions[1]? = some ⟨0x80#32, 0x100#32, []⟩) ∧
    (Region.mk 0x4000#32 0x0#32 []).size = 0#32 ∧
    2 ^ 32 < (Region.mk 0xFFFFFF00#32 0x200#32 []).base.toNat + (Region.mk 0xFFFFFF00#32 0x200#32 []).size.toNat := by decide

/-- `stack4` at the start of a step. -/
def started : Transaction := { state := stack4, reported := {} }

/-- The region's last byte, and the first address after it. -/
theorem witness_ByteReadGivesTheStoredByteOrZero :
    started.state.translate 0xFFFF#32 = some (0, 0xFFFF) ∧ started.state.translate 0x10000#32 = none := by decide

/-- The region's last word, a word that runs one byte past it, and the first address after it. -/
theorem witness_WordReadAssemblesTheFourBytes :
    (started.state.translate 0xFFFC#32 = some (0, 0xFFFC) ∧ 0xFFFC + 3 < regionSize started.state.regions 0) ∧
    (started.state.translate 0xFFFD#32 = some (0, 0xFFFD) ∧ ¬ 0xFFFD + 3 < regionSize started.state.regions 0) ∧
    started.state.translate 0x10000#32 = none := by decide

/-- The region's first word, a word that starts at its last byte, and the top address. -/
theorem witness_WordWriteStoresTheFourBytes :
    (started.state.translate 0x0#32 = some (0, 0) ∧ 0 + 3 < regionSize started.state.regions 0) ∧
    (started.state.translate 0xFFFF#32 = some (0, 0xFFFF) ∧ ¬ 0xFFFF + 3 < regionSize started.state.regions 0) ∧
    started.state.translate 0xFFFFFFFF#32 = none := by decide

theorem witness_WriteThenReadReturnsTheWord :
    (stack4.wordDefined 0xFFFC#32 = true ∧ stack4.mapped 0xFFFC#32 = true) ∧
    (stack4.wordDefined 0x10000#32 = true ∧ stack4.mapped 0x10000#32 = false) := by decide

/-- Two regions that do not overlap, the second the last 256 bytes of the address space. -/
def twoRegions : State := platform [(0x0#32, 0x10000#32), (0xFFFFFF00#32, 0x100#32)]

theorem witness_StoredWordIsFetchedInByteOrder :
    twoRegions.disjointRegions ∧ twoRegions.mapped 0xFFFFFFFC#32 = true ∧ twoRegions.wordDefined 0xFFFFFFFC#32 = true ∧
    (0xFFFFFFFC#32).toNat + 3 < 2 ^ 32 ∧ 3 < 4 := by
  refine ⟨?_, by decide⟩
  intro i j r q a hi hj hr hq
  rcases i with _ | _ | i <;> rcases j with _ | _ | j <;>
    simp [twoRegions, platform] at hi hj <;> subst hi hj <;>
    simp [Region.matchesAddress] at hr hq ⊢ <;> omega

theorem witness_RefusedExactlyWhereAWordIsNotContained :
    accessesDefined (.storesp 31) stack4 ∧ accessesDefined .store addressed ∧ ¬ accessesDefined .popsp uncontained :=
  ⟨List.all_eq_true.1 (by decide), List.all_eq_true.1 (by decide), fun h => absurd (List.all_eq_true.2 h) (by decide)⟩

theorem witness_PcAdvancesByOneExceptAfterPoppcAndEmulate :
    (∃ t, exec .poppc stack4 = .next t) ∧ (∃ t, exec (.emulate 31) stack4 = .next t) ∧ ∃ t, exec .add stack4 = .next t :=
  ⟨⟨_, rfl⟩, ⟨_, rfl⟩, ⟨_, rfl⟩⟩

theorem witness_SpMovesAsTheTableSays :
    (∃ t, exec (.im 0x7F#7) stack4 = .next t) ∧ (∃ t, exec (.loadsp 3) stack4 = .next t) ∧
    (∃ t, exec (.storesp 31) stack4 = .next t) ∧ (∃ t, exec .store addressed = .next t) ∧
    (∃ t, exec .popsp stack4 = .next t) ∧ ∃ t, exec (.addsp 15) stack4 = .next t :=
  ⟨⟨_, rfl⟩, ⟨_, rfl⟩, ⟨_, rfl⟩, ⟨_, rfl⟩, ⟨_, rfl⟩, ⟨_, rfl⟩⟩

theorem witness_IdimIsSetClearedKeptAndReadOnlyByIm :
    (∃ t, exec (.im 0x7F#7) stack4 = .next t) ∧ (∃ t, exec .breakpoint (stack4.withIdim true) = .next t) ∧
    (∀ p, Instr.add ≠ .im p) ∧ ∃ t, exec .add stack4 = .next t :=
  ⟨⟨_, rfl⟩, ⟨_, rfl⟩, nofun, ⟨_, rfl⟩⟩

/-- An instruction that stores nothing; one that stores, with a byte just below and just above its word. -/
theorem witness_MemoryChangesOnlyAtTheStoredAddress :
    ((∃ t, exec .poppc stack4 = .next t) ∧ storedAddress .poppc stack4 = none) ∧
    ((∃ t, exec .store addressed = .next t) ∧ storedAddress .store addressed = some 0x8000#32 ∧
      ¬ inWordAt 0x8000#32 0x7FFF#32 ∧ ¬ inWordAt 0x8000#32 0x8004#32) :=
  ⟨⟨⟨_, rfl⟩, by decide⟩, ⟨_, rfl⟩, by decide, by decide, by decide⟩

theorem witness_ConfigurationAndRegionTableNeverChange : ∃ t, step addressed = .next t := ⟨_, rfl⟩

theorem witness_StepKeepsMemoryWellFormed : addressed.memoryWf ∧ ∃ t, step addressed = .next t := ⟨by decide, _, rfl⟩

theorem witness_ConstructionSetsTheResetValues : conventionalRegions ≠ [] := by decide

/-- A POPPC that jumps away, an EMULATE, and an IM that leaves `idim` set. -/
theorem witness_JumpTargetsAreReachedWithIdimClear :
    (∃ t, step (machine be 0x0#32 0xFFF0#32 true 0x04#8 [(0xFFF0#32, 0x400#32)]) = .next t ∧ t.pc = 0x400#32) ∧
    (∃ t, step (spOp 0x10000#32 0x3F#8) = .next t ∧ (spOp 0x10000#32 0x3F#8).fetchInstr = .emulate 31) ∧
    ∃ t, step (spOp 0x10000#32 0xFF#8) = .next t ∧ t.idim = true :=
  ⟨⟨_, rfl, by decide⟩, ⟨_, rfl, by decide⟩, ⟨_, rfl, rfl⟩⟩

/-- A run of IM bytes, CONST and PUSHSP, POPSP, from reset: the first push takes the region's last word. -/
theorem witness_ImRunPushesOneWord :
    State.reset.idim = false ∧ State.reset.mapped (State.reset.sp - 4#32) = true ∧
    State.reset.wordDefined (State.reset.sp - 4#32) = true := by decide

/-- CONST 64 takes two IM bytes, and a run of two IM bytes that gives 64. -/
theorem witness_ConstLeavesItsWordOnTop :
    (State.reset.idim = false ∧ State.reset.mapped (State.reset.sp - 4#32) = true ∧
      State.reset.wordDefined (State.reset.sp - 4#32) = true) ∧
    imRunWord 0x00#7 [0x40#7] = 0x40#32 := by decide

theorem witness_PushspThenPopspRestoresSp :
    State.reset.mapped (State.reset.sp - 4#32) = true ∧ State.reset.wordDefined (State.reset.sp - 4#32) = true := by decide

/-- Before an EMULATE at `pc` = 0, and a state with its return address on top. -/
theorem witness_EmulateEntryAndReturn :
    (stack4.mapped (stack4.sp - 4#32) = true ∧ stack4.wordDefined (stack4.sp - 4#32) = true) ∧
    ((stack4.writeWord stack4.sp 0x1#32).wordDefined stack4.sp = true ∧
      (stack4.writeWord stack4.sp 0x1#32).readWord stack4.sp = stack4.pc + 1#32) := by decide

theorem witness_NotAndFlipAreInvolutions :
    Instr.flip ∈ [Instr.not, .flip] ∧ stack4.wordDefined stack4.sp = true := by decide

theorem witness_AddAndOrAreCommutative :
    Instr.or ∈ [Instr.add, .and, .or] ∧ stack4.mapped stack4.sp = true ∧ stack4.mapped (stack4.sp + 4#32) = true ∧
    (∃ t, exec .or stack4 = .next t) ∧
    ∃ u, exec .or ((stack4.writeWord stack4.sp (stack4.readWord (stack4.sp + 4#32))).writeWord (stack4.sp + 4#32)
      (stack4.readWord stack4.sp)) = .next u :=
  ⟨by decide, by decide, by decide, ⟨_, rfl⟩, ⟨_, rfl⟩⟩

theorem witness_StrictModeChangesNoTransition :
    strictAligned.byteOrder = addressed.cfg.byteOrder ∧ (∃ t, step addressed = .next t) ∧
    step uncontained = .refused (.wordNotContained 0xFFFD#32) :=
  ⟨by decide, ⟨_, rfl⟩, rfl⟩

theorem witness_StatusIsOkUnlessStrictReportsIt :
    ((∃ t, step addressed = .next t) ∧ addressed.cfg.strict = false) ∧
    ((∃ t, step (machine strictAligned 0x0#32 0xFFF0#32 true 0x0E#8 []) = .next t) ∧ strictAligned.strict = true) :=
  ⟨⟨⟨_, rfl⟩, by decide⟩, ⟨_, rfl⟩, by decide⟩

theorem witness_UnknownOpcodeIsReportedAlone :
    stepReport (machine strictAligned 0x0#32 0xFFF0#32 true 0x0E#8 []) = .ok { unknownOpcode := true } := by decide

/-- The word 5 at address 0, in a big-endian and in a little-endian machine. -/
def mirrorBe : State :=
  { State.reset with
    sp := 0x0#32
    regions := [{ base := 0x0#32, size := 0x10000#32, storage := [(3, 0x05#8)] }] }

def mirrorLe : State :=
  { mirrorBe with cfg := le, regions := [{ base := 0x0#32, size := 0x10000#32, storage := [(0, 0x05#8)] }] }

theorem witness_ByteOrderIsInvisibleToAlignedPrograms :
    mirrorBe.alignedPlatform ∧ mirrored mirrorBe mirrorLe ∧
    (∀ a ∈ wordAccesses .not mirrorBe, wordAligned a = true) ∧ ∃ t, exec .not mirrorBe = .next t := by
  refine ⟨by decide, ⟨by decide, by decide, ?_, rfl, rfl, rfl⟩, List.all_eq_true.1 (by decide), _, rfl⟩
  intro i off
  have h : (0 = off) = (3 = mirrorOffset off) := by
    unfold mirrorOffset
    exact propext (by omega)
  rcases i with _ | i
  · simp [storageByte, mirrorBe, mirrorLe, Memory.read, h]
  · simp [storageByte, mirrorBe, mirrorLe]

theorem witness_AlignedPlatformNeverRefusesAlignedAccesses :
    stack4.alignedPlatform ∧ wordAligned 0xFFFC#32 = true ∧ ∀ a ∈ wordAccesses .add stack4, wordAligned a = true :=
  ⟨by decide, by decide, List.all_eq_true.1 (by decide)⟩

theorem witness_UnmappedRunOnlyAdvancesPc :
    ∀ k < 3, State.mapped { State.reset with pc := 0xFFFFFFFD#32 } (0xFFFFFFFD#32 + BitVec.ofNat 32 k) = false := by decide

end Sys2Proof.Tests
end

section
/-! PROOFS. Every instruction as one table lookup: the checks it makes and the state it leaves when they pass (10_state.md
R32). Whatever is claimed of all instructions follows from `exec_next_iff`, without running a block again. -/

namespace Sys2Proof.Machine

/-- R32's `pc` column: `pc` after instruction `i`. -/
def pcAfter (i : Instr) (s : State) : Word :=
  match i with
  | .poppc => s.readWord s.sp
  | .emulate n => slotAddress n
  | _ => s.pc + 1#32

/-- R32's `sp` column: `sp` after instruction `i`. -/
def spAfter (i : Instr) (s : State) : Word :=
  match i with
  | .im _ => if s.idim then s.sp else s.sp - 4#32
  | .loadsp _ | .emulate _ | .pushsp => s.sp - 4#32
  | .storesp _ | .poppc | .add | .and | .or => s.sp + 4#32
  | .store => s.sp + 8#32
  | .popsp => s.readWord s.sp
  | _ => s.sp

/-- R32's `idim` column, which is R24: `idim` after instruction `i`. -/
def idimAfter (i : Instr) (s : State) : Bool :=
  if clearsIdim i then false else if keepsIdim i then s.idim else true

/-- R32's memory columns: the region table after instruction `i`, whose words are read before the write (R58). -/
def regionsAfter (i : Instr) (s : State) : List Region :=
  match i with
  | .im p =>
    if s.idim then s.writeWordRegions s.sp (imExtend (s.readWord s.sp) p) else s.writeWordRegions (s.sp - 4#32) (imStart p)
  | .storesp k => s.writeWordRegions (stackAddress s.sp k) (s.readWord s.sp)
  | .loadsp k => s.writeWordRegions (s.sp - 4#32) (s.readWord (stackAddress s.sp k))
  | .addsp g => s.writeWordRegions s.sp (s.readWord s.sp + s.readWord (stackAddress s.sp g))
  | .emulate _ => s.writeWordRegions (s.sp - 4#32) (s.pc + 1#32)
  | .load => s.writeWordRegions s.sp (s.readWord (s.readWord s.sp))
  | .store => s.writeWordRegions (s.readWord s.sp) (s.readWord (s.sp + 4#32))
  | .pushsp => s.writeWordRegions (s.sp - 4#32) s.sp
  | .add => s.writeWordRegions (s.sp + 4#32) (s.readWord s.sp + s.readWord (s.sp + 4#32))
  | .and => s.writeWordRegions (s.sp + 4#32) (s.readWord s.sp &&& s.readWord (s.sp + 4#32))
  | .or => s.writeWordRegions (s.sp + 4#32) (s.readWord s.sp ||| s.readWord (s.sp + 4#32))
  | .not => s.writeWordRegions s.sp (~~~ s.readWord s.sp)
  | .flip => s.writeWordRegions s.sp (flipBits (s.readWord s.sp))
  | _ => s.regions

/-- The state that instruction `i` leaves when none of its accesses is refused: R32's row of `i`. -/
def stateAfter (i : Instr) (s : State) : State where
  cfg := s.cfg
  regions := regionsAfter i s
  pc := pcAfter i s
  sp := spAfter i s
  idim := idimAfter i s

/-- The state `u`, unless one of the word accesses `as` from `s` is refused: then the refusal of the first such (R48). -/
def nextIfDefined (s u : State) (as : List Word) : Host.Outcome State Fault Refusal :=
  match as with
  | [] => .next u
  | a :: rest => if s.wordDefined a then nextIfDefined s u rest else .refused (.wordNotContained a)

/-- The meaning of every instruction: its word accesses are checked in order, and then it leaves its row's state. -/
theorem exec_eq_nextIfDefined (i : Instr) (s : State) :
    exec i s = nextIfDefined s (stateAfter i s) (wordAccesses i s) := by
  rw [exec_eq_commit, commit]
  cases i with
  | im p =>
    obtain ⟨cfg, regions, pc, sp, idim⟩ := s
    cases idim with
    | false => simp only [blockOf, imBlock_run, wordAccesses, Bool.false_eq_true, if_false, nextIfDefined]; split_ifs <;> rfl
    | true => simp only [blockOf, imBlock_run, wordAccesses, if_true, nextIfDefined]; split_ifs <;> rfl
  | nop | breakpoint | unsupported01 | unsupported03 | unsupported0E | unsupported0F => rfl
  | _ =>
    simp only [blockOf, storespBlock_run, loadspBlock_run, addspBlock_run, emulateBlock_run, poppcBlock_run, loadBlock_run,
      storeBlock_run, pushspBlock_run, popspBlock_run, addBlock, andBlock, orBlock, notBlock, flipBlock, binaryBlock_run,
      unaryBlock_run, wordAccesses, nextIfDefined]
    split_ifs <;> rfl

theorem nextIfDefined_eq_next_iff (s u t : State) (as : List Word) :
    nextIfDefined s u as = .next t ↔ (∀ a ∈ as, s.wordDefined a = true) ∧ t = u := by
  induction as with
  | nil => simpa [nextIfDefined] using eq_comm
  | cons a rest ih =>
    cases ha : s.wordDefined a with
    | true => simp [nextIfDefined, ha, ih]
    | false => simp [nextIfDefined, ha]

/-- What a next state says: no access of the instruction was refused, and the state is its row's (R32). -/
theorem exec_next_iff (i : Instr) (s t : State) : exec i s = .next t ↔ accessesDefined i s ∧ t = stateAfter i s := by
  rw [exec_eq_nextIfDefined, nextIfDefined_eq_next_iff]

theorem eq_stateAfter_of_exec_next {i : Instr} {s t : State} (h : exec i s = .next t) : t = stateAfter i s :=
  ((exec_next_iff i s t).1 h).2

end Sys2Proof.Machine
end

section
/-! PROOFS. The rules of 10_state.md: `pc`, `sp` and `idim` after any instruction (R21, R22, R24, R32) and the `flags` view
(R25). -/

namespace Sys2Proof.Machine

/-- Settles O34: R32's `pc` column. -/
theorem pcAdvancesByOneExceptAfterPoppcAndEmulate : Obligations.PcAdvancesByOneExceptAfterPoppcAndEmulate := by
  intro i s t h
  rw [eq_stateAfter_of_exec_next h]
  cases i with
  | emulate n => exact congrArg (BitVec.ofNat 32) (Nat.mul_comm emulateStride n)
  | _ => rfl

/-- Settles O35: R32's `sp` column. -/
theorem spMovesAsTheTableSays : Obligations.SpMovesAsTheTableSays := by
  intro i s t h
  rw [eq_stateAfter_of_exec_next h]
  cases i <;> rfl

/-! ### Only IM reads `idim` -/

/-- IM is the one instruction that neither clears nor keeps `idim` (R24). -/
theorem isIm_iff (i : Instr) : (∃ p, i = .im p) ↔ clearsIdim i = false ∧ keepsIdim i = false := by
  cases i <;> simp [clearsIdim, keepsIdim]

section
variable (i : Instr) (s : State) (b : Bool) (hi : ∀ p, i ≠ .im p)
include hi

theorem idimAfter_withIdim : idimAfter i (s.withIdim b) = if clearsIdim i then false else b := by
  cases hc : clearsIdim i with
  | true => simp [idimAfter, hc]
  | false =>
    cases hk : keepsIdim i with
    | true => simp [idimAfter, hc, hk]
    | false => exact ((isIm_iff i).2 ⟨hc, hk⟩).elim fun p hp => absurd hp (hi p)

theorem accessesDefined_withIdim : accessesDefined i (s.withIdim b) ↔ accessesDefined i s := by
  cases i with
  | im p => exact absurd rfl (hi p)
  | _ => rfl

theorem stateAfter_withIdim :
    stateAfter i (s.withIdim b) = (stateAfter i s).withIdim (if clearsIdim i then false else b) := by
  rw [← idimAfter_withIdim i s b hi]
  cases i with
  | im p => exact absurd rfl (hi p)
  | _ => rfl

end

/-- Settles O36: R32's `idim` column; and R32's other columns of every instruction but IM do not mention `idim`. -/
theorem idimIsSetClearedKeptAndReadOnlyByIm : Obligations.IdimIsSetClearedKeptAndReadOnlyByIm := by
  refine ⟨fun i s t h => ?_, isIm_iff, fun i s t b hi h => ?_⟩
  · rw [eq_stateAfter_of_exec_next h]
    rfl
  · obtain ⟨hdef, rfl⟩ := (exec_next_iff i s t).1 h
    exact (exec_next_iff i (s.withIdim b) _).2
      ⟨(accessesDefined_withIdim i s b hi).2 hdef, (stateAfter_withIdim i s b hi).symm⟩

/-- Settles O43: the view is the bit `idim` shifted to IDIM_BIT, which is below 8, so no bit is shifted out. -/
theorem flagsShowsIdimAtIdimBit : Obligations.FlagsShowsIdimAtIdimBit := by
  intro s k
  have hbit : s.cfg.idimBit.val < 8 := s.cfg.idimBit.isLt
  cases hs : s.idim with
  | false => simp [State.flags, hs]
  | true =>
    rw [State.flags, hs, if_pos rfl, Bool.true_and, Bool.eq_iff_iff]
    simp only [BitVec.getLsbD_shiftLeft, BitVec.getLsbD_one, Bool.and_eq_true, Bool.not_eq_true', decide_eq_true_eq,
      decide_eq_false_iff_not]
    omega

end Sys2Proof.Machine
end

section
/-! PROOFS. The frame of memory: what a word write, and so any instruction, leaves unchanged (10_state.md R32, 20_memory.md
R46, R58). -/

namespace Sys2Proof.Machine

/-- A byte read depends on the region table alone (R44). -/
theorem readByte_congr {s t : State} (h : t.regions = s.regions) (b : Word) : t.readByte b = s.readByte b := by
  simp [State.readByte, State.translate, h]

/-- Two addresses in one region are as far apart as their offsets (R43), so a storage byte of the word at `a` is read at one
of the word's four addresses. -/
theorem inWordAt_of_inStoredWord {s : State} {a b : Word} {j k : Nat} (hb : s.translate b = some (j, k))
    (h : inStoredWord s a j k) : inWordAt a b := by
  obtain ⟨off, ha, hle, hlt⟩ := h
  obtain ⟨r, hr, hra, hoff⟩ := translateIn_some _ _ _ _ ha
  obtain ⟨q, hq, hqb, hk⟩ := translateIn_some _ _ _ _ hb
  obtain rfl : r = q := Option.some.inj (hr.symm.trans hq)
  have hbaseA := ((matchesAddress_iff r a).1 hra).1
  have hbaseB := ((matchesAddress_iff r b).1 hqb).1
  unfold inWordAt
  omega

/-- A word write leaves every storage byte outside the word as it was (R46). -/
theorem storageByte_writeWordRegions_of_not_inStoredWord (s : State) (a v : Word) (j k : Nat)
    (h : ¬ inStoredWord s a j k) : storageByte (s.writeWordRegions a v) j k = storageByte s.regions j k := by
  cases ha : s.translate a with
  | none => rw [writeWordRegions_unmapped s a v ha]
  | some x =>
    obtain ⟨i, off⟩ := x
    rw [storageByte_writeWordRegions s a v i off j k ha, if_neg]
    rintro ⟨rfl, hle, hlt⟩
    exact h ⟨off, ha, hle, hlt⟩

/-- A word write leaves the byte at every address outside the word as it was. -/
theorem readByte_writeWord_of_not_inWordAt (s : State) (a v b : Word) (h : ¬ inWordAt a b) :
    (s.writeWord a v).readByte b = s.readByte b := by
  unfold State.readByte
  rw [translate_writeWord]
  cases hb : s.translate b with
  | none => rfl
  | some x =>
    exact storageByte_writeWordRegions_of_not_inStoredWord s a v x.1 x.2 fun hin => h (inWordAt_of_inStoredWord hb hin)

/-- Settles O37: memory is as before, or has one word written at the stored address (`exec_regions_cases`). -/
theorem memoryChangesOnlyAtTheStoredAddress : Obligations.MemoryChangesOnlyAtTheStoredAddress := by
  intro i s t h
  rcases exec_regions_cases i s t h with ⟨hnone, hregions⟩ | ⟨a, v, hsome, -, hregions⟩
  · refine ⟨fun _ => ⟨hregions, readByte_congr hregions⟩, fun a ha => ?_⟩
    simp [hnone] at ha
  · refine ⟨fun hnone => by simp [hnone] at hsome, fun a' ha' => ?_⟩
    obtain rfl : a = a' := Option.some.inj (hsome.symm.trans ha')
    refine ⟨fun b hb => ?_, fun j k hjk => ?_⟩
    · calc t.readByte b = (s.writeWord a v).readByte b := readByte_congr hregions b
        _ = s.readByte b := readByte_writeWord_of_not_inWordAt s a v b hb
    · rw [hregions]
      exact storageByte_writeWordRegions_of_not_inStoredWord s a v j k hjk

end Sys2Proof.Machine
end

section
/-! PROOFS. The address lookup as an equivalence: which region it finds, and when none (20_memory.md R42, R43). -/

namespace Sys2Proof.Machine

/-- The lookup answers `(i, off)` exactly if region `i` is the first that matches and `off` the address's offset in it. -/
theorem translateIn_eq_some_iff (rs : List Region) (a : Word) (i off : Nat) :
    translateIn rs a = some (i, off) ↔
      ∃ r, rs[i]? = some r ∧ r.matchesAddress a = true ∧ off = a.toNat - r.base.toNat ∧
        ∀ j < i, ∀ q, rs[j]? = some q → ¬ q.matchesAddress a = true := by
  induction rs generalizing i with
  | nil => simp [translateIn]
  | cons p rest ih =>
    cases hp : p.matchesAddress a with
    | true =>
      cases i with
      | zero => simp [translateIn, hp, eq_comm (a := off)]
      | succ i =>
        simp only [translateIn, hp, if_true]
        refine iff_of_false (by simp) ?_
        rintro ⟨r, -, -, -, hfirst⟩
        exact hfirst 0 i.succ_pos p rfl hp
    | false =>
      cases i with
      | zero => simp [translateIn, hp]
      | succ i =>
        have hrest : translateIn (p :: rest) a = some (i + 1, off) ↔ translateIn rest a = some (i, off) := by
          simp [translateIn, hp]
        rw [hrest, ih]
        simp only [Nat.forall_lt_succ_left, List.getElem?_cons_succ, List.getElem?_cons_zero]
        simp [hp]

/-- The lookup answers nothing exactly if no region matches. -/
theorem translateIn_eq_none_iff (rs : List Region) (a : Word) :
    translateIn rs a = none ↔ ∀ q ∈ rs, ¬ q.matchesAddress a = true := by
  induction rs with
  | nil => simp [translateIn]
  | cons p rest ih => cases hp : p.matchesAddress a <;> simp [translateIn, hp, ih]

/-- Settles O25: the two equivalences of the lookup, with the match written out (R42). -/
theorem translateFindsTheFirstMatchingRegion : Obligations.TranslateFindsTheFirstMatchingRegion := by
  intro s a
  refine ⟨fun i off => ?_, ?_⟩
  · rw [State.translate, translateIn_eq_some_iff]
    simp only [matchesAddress_iff, and_assoc]
  · rw [State.translate, translateIn_eq_none_iff]
    simp only [matchesAddress_iff]

/-- Settles O26: the lookup answers where a region matches, and no region before the one it finds does. -/
theorem earlierRegionWinsAndDegenerateRegionsMatchLittle :
    Obligations.EarlierRegionWinsAndDegenerateRegionsMatchLittle := by
  refine ⟨fun s a i j r q hr _ _ hra _ => ?_, fun r a hsize => ?_, fun r a hcross => ?_⟩
  · cases ha : s.translate a with
    | none => exact absurd hra ((translateIn_eq_none_iff s.regions a).1 ha r (List.mem_of_getElem? hr))
    | some x =>
      obtain ⟨k, off⟩ := x
      obtain ⟨-, -, -, -, hfirst⟩ := (translateIn_eq_some_iff s.regions a k off).1 ha
      exact ⟨k, off, Nat.le_of_not_lt fun hik => hfirst i hik r hr hra, rfl⟩
  · simp [Region.matchesAddress, hsize]
  · have hlt : a.toNat < 2 ^ 32 := a.isLt
    rw [matchesAddress_iff]
    omega

end Sys2Proof.Machine
end

section
/-! PROOFS. The two byte orders (20_memory.md R47, as presumed: log 13). -/

namespace Sys2Proof.Machine

/-- The four bytes of a word, the most significant first, make up the word, bit by bit. -/
theorem append_bytes_of_word (v : Word) :
    v.extractLsb' 24 8 ++ v.extractLsb' 16 8 ++ v.extractLsb' 8 8 ++ v.extractLsb' 0 8 = v := by
  ext k hk
  grind

/-- The slices of four concatenated bytes are the four bytes, bit by bit. -/
theorem bytes_of_append (b0 b1 b2 b3 : Byte) :
    (b0 ++ b1 ++ b2 ++ b3).extractLsb' 24 8 = b0 ∧ (b0 ++ b1 ++ b2 ++ b3).extractLsb' 16 8 = b1 ∧
      (b0 ++ b1 ++ b2 ++ b3).extractLsb' 8 8 = b2 ∧ (b0 ++ b1 ++ b2 ++ b3).extractLsb' 0 8 = b3 := by
  refine ⟨?_, ?_, ?_, ?_⟩
  all_goals
    ext k hk
    rw [BitVec.getElem_extractLsb']
    grind

/-- Assembling the four bytes of a word gives the word, in either order. -/
@[simp] theorem fromWire_toWire (o : ByteOrder) (v : Word) :
    fromWire o (toWire o v 0) (toWire o v 1) (toWire o v 2) (toWire o v 3) = v := by
  cases o <;> exact append_bytes_of_word v

/-- The bytes of an assembled word are the four it was assembled from, in either order. -/
theorem toWire_fromWire (o : ByteOrder) (b0 b1 b2 b3 : Byte) :
    toWire o (fromWire o b0 b1 b2 b3) 0 = b0 ∧ toWire o (fromWire o b0 b1 b2 b3) 1 = b1 ∧
      toWire o (fromWire o b0 b1 b2 b3) 2 = b2 ∧ toWire o (fromWire o b0 b1 b2 b3) 3 = b3 := by
  cases o with
  | be => exact bytes_of_append b0 b1 b2 b3
  | le =>
    obtain ⟨h3, h2, h1, h0⟩ := bytes_of_append b3 b2 b1 b0
    exact ⟨h0, h1, h2, h3⟩

/-- Settles O30: the conversions by definition, and the two round trips. -/
theorem byteOrderConversionsAreInverse : Obligations.ByteOrderConversionsAreInverse :=
  ⟨fun _ _ _ _ => ⟨rfl, rfl⟩, fun _ => ⟨rfl, rfl, rfl, rfl, rfl, rfl, rfl, rfl⟩, fromWire_toWire, toWire_fromWire⟩

/-- The other byte order assembles the same bytes from the other end. -/
theorem fromWire_other (o : ByteOrder) (b0 b1 b2 b3 : Byte) : fromWire o.other b0 b1 b2 b3 = fromWire o b3 b2 b1 b0 := by
  cases o <;> rfl

/-- Byte `k` of a word in the other byte order is its byte `3 - k` in this one. -/
theorem toWire_other (o : ByteOrder) (v : Word) (k : Nat) (hk : k < 4) : toWire o.other v k = toWire o v (3 - k) := by
  have hoffset : 24 - 8 * k = 8 * (3 - k) := by omega
  have hback : 24 - 8 * (3 - k) = 8 * k := by omega
  cases o
  · exact congrArg (v.extractLsb' · 8) hback.symm
  · exact congrArg (v.extractLsb' · 8) hoffset

end Sys2Proof.Machine
end

section
/-! PROOFS. The three accesses from the lookup's answer (20_memory.md R44 to R46, R48), and what a read sees after a write
(R49, R52). -/

namespace Sys2Proof.Machine

/-! ### Each access where the address is mapped, and where it is not -/

section
variable {s : State} {a : Word} {i off : Nat}

theorem mapped_iff : s.mapped a = true ↔ ∃ i off, s.translate a = some (i, off) := by
  simp [State.mapped, Option.isSome_iff_exists]

theorem mapped_eq_false_iff : s.mapped a = false ↔ s.translate a = none := by
  simp [State.mapped]

theorem readByte_of_translate (h : s.translate a = some (i, off)) : s.readByte a = storageByte s.regions i off := by
  simp [State.readByte, h]

theorem readByte_unmapped (h : s.translate a = none) : s.readByte a = 0x00#8 := by
  simp [State.readByte, h]

theorem wordDefined_iff (h : s.translate a = some (i, off)) :
    s.wordDefined a = true ↔ off + 3 < regionSize s.regions i := by
  simp [State.wordDefined, h]

theorem wordDefined_unmapped (h : s.translate a = none) : s.wordDefined a = true := by
  simp [State.wordDefined, h]

theorem readWord_of_translate (h : s.translate a = some (i, off)) :
    s.readWord a = fromWire s.cfg.byteOrder (storageByte s.regions i off) (storageByte s.regions i (off + 1))
      (storageByte s.regions i (off + 2)) (storageByte s.regions i (off + 3)) := by
  simp [State.readWord, h]

theorem readWord_unmapped (h : s.translate a = none) : s.readWord a = 0x00000000#32 := by
  simp [State.readWord, h]

/-- A write to an unmapped address is dropped (R46, R54). -/
theorem writeWord_unmapped (v : Word) (h : s.translate a = none) : s.writeWord a v = s := by
  rw [State.writeWord, writeWordRegions_unmapped s a v h]
  rfl

end

/-! ### What an access adds to the report (R164) -/

section
variable {t : Transaction} {a : Word}

/-- A mapped word access can report misalignment alone. -/
theorem union_wordReport_mapped (h : t.state.mapped a = true) :
    t.reported.union (t.state.wordReport a) =
      { t.reported with
        misalignedAccess := t.reported.misalignedAccess || (t.state.cfg.alignCheck && !wordAligned a) } := by
  simp [Report.union, State.wordReport, h]

/-- An unmapped word access reports UnmappedAddress, and can report misalignment as well. -/
theorem union_wordReport_unmapped (h : t.state.mapped a = false) :
    t.reported.union (t.state.wordReport a) =
      { t.reported with
        unmappedAddress := true
        misalignedAccess := t.reported.misalignedAccess || (t.state.cfg.alignCheck && !wordAligned a) } := by
  simp [Report.union, State.wordReport, h]

end

/-- Settles O27: the byte read is total (`memReadByte_run`), and reports an unmapped address alone. -/
theorem byteReadGivesTheStoredByteOrZero : Obligations.ByteReadGivesTheStoredByteOrZero := by
  intro t a
  refine ⟨fun i off ha => ?_, fun ha => ?_⟩
  · have hreport : t.reported.union (t.state.byteReport a) = t.reported := by
      simp [Report.union, State.byteReport, mapped_iff.2 ⟨i, off, ha⟩]
    rw [memReadByte_run, readByte_of_translate ha, Transaction.noted, hreport]
  · have hreport : t.reported.union (t.state.byteReport a) = { t.reported with unmappedAddress := true } := by
      simp [Report.union, State.byteReport, mapped_eq_false_iff.2 ha]
    rw [memReadByte_run, readByte_unmapped ha, Transaction.noted, hreport]

/-- Settles O28: the word read is refused where the word is not contained, and else total (`memReadWord_run`). -/
theorem wordReadAssemblesTheFourBytes : Obligations.WordReadAssemblesTheFourBytes := by
  intro t a bad
  refine ⟨fun i off ha hin => ?_, fun i off ha hout => ?_, fun ha => ?_⟩
  · rw [memReadWord_run, if_pos ((wordDefined_iff ha).2 hin), readWord_of_translate ha, Transaction.noted,
      union_wordReport_mapped (mapped_iff.2 ⟨i, off, ha⟩)]
  · rw [memReadWord_run, if_neg (mt (wordDefined_iff ha).1 hout)]
  · rw [memReadWord_run, if_pos (wordDefined_unmapped ha), readWord_unmapped ha, Transaction.noted,
      union_wordReport_unmapped (mapped_eq_false_iff.2 ha)]

/-- Byte `k` of a word just written is byte `k` of its wire form (R46). -/
theorem storageByte_writeWordRegions_of_lt {s : State} {a : Word} {i off k : Nat} (v : Word)
    (h : s.translate a = some (i, off)) (hk : k < 4) :
    storageByte (s.writeWordRegions a v) i (off + k) = toWire s.cfg.byteOrder v k := by
  rw [storageByte_writeWordRegions s a v i off i (off + k) h, if_pos (by omega), Nat.add_sub_cancel_left]

/-- Settles O29: the word write is refused where the word is not contained, and else total (`memWriteWord_run`). -/
theorem wordWriteStoresTheFourBytes : Obligations.WordWriteStoresTheFourBytes := by
  intro t a v bad
  refine ⟨fun i off ha hin => ?_, fun i off ha hout => ?_, fun ha => ?_⟩
  · refine ⟨t.state.writeWordRegions a v, ?_, geometry_writeWordRegions t.state a v,
      fun k hk => storageByte_writeWordRegions_of_lt v ha hk, fun j k hjk => ?_⟩
    · rw [memWriteWord_run, if_pos ((wordDefined_iff ha).2 hin), union_wordReport_mapped (mapped_iff.2 ⟨i, off, ha⟩)]
      rfl
    · rw [storageByte_writeWordRegions t.state a v i off j k ha, if_neg hjk]
  · rw [memWriteWord_run, if_neg (mt (wordDefined_iff ha).1 hout)]
  · rw [memWriteWord_run, if_pos (wordDefined_unmapped ha), writeWord_unmapped v ha,
      union_wordReport_unmapped (mapped_eq_false_iff.2 ha)]

/-! ### A read after a write -/

/-- A word written at a mapped address reads back, in either byte order (R52). -/
theorem readWord_writeWord_same {s : State} {a : Word} (v : Word) (h : s.mapped a = true) :
    (s.writeWord a v).readWord a = v := by
  obtain ⟨i, off, ha⟩ := mapped_iff.1 h
  have hbyte : ∀ k < 4, storageByte (s.writeWordRegions a v) i (off + k) = toWire s.cfg.byteOrder v k :=
    fun k hk => storageByte_writeWordRegions_of_lt v ha hk
  have hfirst : storageByte (s.writeWordRegions a v) i off = toWire s.cfg.byteOrder v 0 := hbyte 0 (by omega)
  rw [readWord_of_translate ((translate_writeWord s a v a).trans ha), writeWord_cfg, writeWord_regions, hfirst,
    hbyte 1 (by omega), hbyte 2 (by omega), hbyte 3 (by omega), fromWire_toWire]

/-- Settles O31: a mapped word reads back; an unmapped write is dropped and an unmapped read is 0 (R54). -/
theorem writeThenReadReturnsTheWord : Obligations.WriteThenReadReturnsTheWord := by
  intro s a v _
  refine ⟨readWord_writeWord_same v, fun hun => ?_⟩
  have ha := mapped_eq_false_iff.1 hun
  rw [writeWord_unmapped v ha]
  exact ⟨readWord_unmapped ha, rfl⟩

/-- Where no two regions overlap, the bytes after a mapped address are looked up in its own region, up to the region's end
(R42, R195). -/
theorem translate_add_of_disjoint {s : State} {a b : Word} {i off k : Nat} (hdisj : s.disjointRegions)
    (ha : s.translate a = some (i, off)) (hb : b.toNat = a.toNat + k) (hk : off + k < regionSize s.regions i) :
    s.translate b = some (i, off + k) := by
  obtain ⟨r, hr, hra, hoff⟩ := translateIn_some s.regions a i off ha
  obtain ⟨hbase, -⟩ := (matchesAddress_iff r a).1 hra
  rw [regionSize_of_getElem? s.regions i r hr] at hk
  have hrb : r.matchesAddress b = true := (matchesAddress_iff r b).2 (by omega)
  refine (translateIn_eq_some_iff s.regions b i (off + k)).2 ⟨r, hr, hrb, by omega, fun j hj q hq hqb => ?_⟩
  exact hj.ne (hdisj j i q r b hq hr hqb hrb)

/-- Settles O32: `a + k` is looked up at offset `off + k` of the word's own region, where the write put byte `k`. -/
theorem storedWordIsFetchedInByteOrder : Obligations.StoredWordIsFetchedInByteOrder := by
  intro s a v k hdisj hmapped hdef htop hk
  obtain ⟨i, off, ha⟩ := mapped_iff.1 hmapped
  have hin := (wordDefined_iff ha).1 hdef
  have hnat : (a + BitVec.ofNat 32 k).toNat = a.toNat + k := by
    rw [BitVec.toNat_add, BitVec.toNat_ofNat]
    omega
  have hlookup := translate_add_of_disjoint hdisj ha hnat (by omega)
  rw [readByte_of_translate ((translate_writeWord s a v _).trans hlookup), writeWord_regions,
    storageByte_writeWordRegions_of_lt v ha hk]
  rfl

end Sys2Proof.Machine
end

section
/-! PROOFS. What every step keeps of memory, and when a step is refused (20_memory.md R41, R48; 00_scope.md R6). -/

namespace Sys2Proof.Machine

/-- Settles O39: memory is as before, or has one word written by a contained access, and such a write keeps the form. -/
theorem stepKeepsMemoryWellFormed : Obligations.StepKeepsMemoryWellFormed := by
  intro s t hs h
  rcases exec_regions_cases s.fetchInstr s t h with ⟨-, hregions⟩ | ⟨a, v, -, hdef, hregions⟩
  · intro r hr
    rw [hregions] at hr
    exact hs r hr
  · intro r hr
    rw [hregions] at hr
    exact wf_writeWord s a v hs hdef r hr

/-- Settles O38: the state an instruction leaves has the old configuration, and a word write keeps every base and size. -/
theorem configurationAndRegionTableNeverChange : Obligations.ConfigurationAndRegionTableNeverChange := by
  intro s t h
  refine ⟨by rw [eq_stateAfter_of_exec_next h]; rfl, ?_⟩
  rcases exec_regions_cases s.fetchInstr s t h with ⟨-, hregions⟩ | ⟨a, v, -, -, hregions⟩
  · rw [hregions]
  · rw [hregions, geometry_writeWordRegions]

/-- A check that fails refuses the step at one of its own accesses, the first that is not defined (R48). -/
theorem nextIfDefined_refused (s u : State) (as : List Word) (h : ¬ ∀ a ∈ as, s.wordDefined a = true) :
    ∃ a ∈ as, s.wordDefined a = false ∧ nextIfDefined s u as = .refused (.wordNotContained a) := by
  induction as with
  | nil => exact absurd (fun a ha => absurd ha List.not_mem_nil) h
  | cons b rest ih =>
    cases hb : s.wordDefined b with
    | false => exact ⟨b, List.mem_cons_self, hb, by simp [nextIfDefined, hb]⟩
    | true =>
      have hrest : ¬ ∀ a ∈ rest, s.wordDefined a = true := fun hall => h (List.forall_mem_cons.2 ⟨hb, hall⟩)
      obtain ⟨a, ha, hfalse, hrun⟩ := ih hrest
      exact ⟨a, List.mem_cons_of_mem b ha, hfalse, by rw [nextIfDefined, if_pos hb, hrun]⟩

/-- Settles O33: an instruction is its row's state behind the checks of its word accesses (`exec_eq_nextIfDefined`). -/
theorem refusedExactlyWhereAWordIsNotContained : Obligations.RefusedExactlyWhereAWordIsNotContained := by
  intro i s
  refine ⟨fun hdef => ⟨stateAfter i s, (exec_next_iff i s _).2 ⟨hdef, rfl⟩⟩, fun hundef => ?_⟩
  rw [exec_eq_nextIfDefined]
  exact nextIfDefined_refused s (stateAfter i s) (wordAccesses i s) hundef

end Sys2Proof.Machine
end

section
/-! PROOFS. What an instruction depends on: `pc`, `sp`, `idim` and the words it accesses, and nothing else of the state
(10_state.md R32, R58). -/

namespace Sys2Proof.Machine

/-- The word that instruction `i` stores at `storedAddress i s` (R32), arbitrary where it stores none. -/
def storedWord (i : Instr) (s : State) : Word :=
  match i with
  | .im p => if s.idim then imExtend (s.readWord s.sp) p else imStart p
  | .storesp _ => s.readWord s.sp
  | .loadsp k => s.readWord (stackAddress s.sp k)
  | .addsp g => s.readWord s.sp + s.readWord (stackAddress s.sp g)
  | .emulate _ => s.pc + 1#32
  | .load => s.readWord (s.readWord s.sp)
  | .store => s.readWord (s.sp + 4#32)
  | .pushsp => s.sp
  | .add => s.readWord s.sp + s.readWord (s.sp + 4#32)
  | .and => s.readWord s.sp &&& s.readWord (s.sp + 4#32)
  | .or => s.readWord s.sp ||| s.readWord (s.sp + 4#32)
  | .not => ~~~ s.readWord s.sp
  | .flip => flipBits (s.readWord s.sp)
  | _ => 0x00000000#32

/-- An instruction with a stored address writes its stored word there, and nothing else. -/
theorem regionsAfter_of_storedAddress {i : Instr} {s : State} {a : Word} (h : storedAddress i s = some a) :
    regionsAfter i s = s.writeWordRegions a (storedWord i s) := by
  cases i with
  | im p =>
    cases hidim : s.idim with
    | false =>
      obtain rfl : s.sp - 4#32 = a := by simpa [storedAddress, hidim] using h
      simp [regionsAfter, storedWord, hidim]
    | true =>
      obtain rfl : s.sp = a := by simpa [storedAddress, hidim] using h
      simp [regionsAfter, storedWord, hidim]
  | poppc | popsp | nop | breakpoint | unsupported01 | unsupported03 | unsupported0E | unsupported0F => cases h
  | _ => cases h; rfl

/-- An instruction without a stored address leaves the region table alone. -/
theorem regionsAfter_of_storedAddress_none {i : Instr} {s : State} (h : storedAddress i s = none) :
    regionsAfter i s = s.regions := by
  cases i with
  | im p => cases hidim : s.idim <;> simp [storedAddress, hidim] at h
  | poppc | popsp | nop | breakpoint | unsupported01 | unsupported03 | unsupported0E | unsupported0F => rfl
  | _ => cases h

/-- The stored address is one of the instruction's accesses. -/
theorem storedAddress_mem_wordAccesses {i : Instr} {s : State} {a : Word} (h : storedAddress i s = some a) :
    a ∈ wordAccesses i s := by
  cases i with
  | im p =>
    cases hidim : s.idim with
    | false =>
      obtain rfl : s.sp - 4#32 = a := by simpa [storedAddress, hidim] using h
      simp [wordAccesses, hidim]
    | true =>
      obtain rfl : s.sp = a := by simpa [storedAddress, hidim] using h
      simp [wordAccesses, hidim]
  | poppc | popsp | nop | breakpoint | unsupported01 | unsupported03 | unsupported0E | unsupported0F => cases h
  | _ => cases h; simp [wordAccesses]

/-- `t` has the registers of `s`, and at every address that instruction `i` accesses from `s` the same word. -/
structure sameInputs (i : Instr) (s t : State) : Prop where
  /-- the registers are equal -/
  pc : t.pc = s.pc
  /-- the registers are equal -/
  sp : t.sp = s.sp
  /-- the flag is equal -/
  idim : t.idim = s.idim
  /-- the accessed words are equal -/
  words : ∀ a ∈ wordAccesses i s, t.readWord a = s.readWord a

namespace sameInputs

variable {i : Instr} {s t : State} (h : sameInputs i s t)
include h

/-- LOAD and STORE access the address that they read from the stack; every other access is at an offset from `sp`. -/
theorem wordAccesses_eq : wordAccesses i t = wordAccesses i s := by
  obtain ⟨-, hsp, hidim, hwords⟩ := h
  cases i with
  | load | store => simp only [wordAccesses, hsp, hwords s.sp List.mem_cons_self]
  | _ => simp only [wordAccesses, hsp, hidim]

/-- STORE stores at the address that it reads from the stack; every other store is at an offset from `sp`. -/
theorem storedAddress_eq : storedAddress i t = storedAddress i s := by
  obtain ⟨-, hsp, hidim, hwords⟩ := h
  cases i with
  | store => simp only [storedAddress, hsp, hwords s.sp List.mem_cons_self]
  | _ => simp only [storedAddress, hsp, hidim]

/-- The stored word is made of `pc`, `sp` and words that the instruction accesses. -/
theorem storedWord_eq : storedWord i t = storedWord i s := by
  obtain ⟨hpc, hsp, hidim, hwords⟩ := h
  cases i with
  | im p =>
    cases hs : s.idim with
    | false => simp [storedWord, hidim, hs]
    | true =>
      have htop : t.readWord s.sp = s.readWord s.sp := hwords s.sp (by simp [wordAccesses, hs])
      simp [storedWord, hsp, hidim, hs, htop]
  | _ =>
    simp only [wordAccesses, List.forall_mem_cons] at hwords
    simp only [storedWord, hpc, hsp, hwords]

/-- POPPC jumps to a word that it reads; every other instruction's next `pc` is a constant or the old one plus 1. -/
theorem pcAfter_eq : pcAfter i t = pcAfter i s := by
  obtain ⟨hpc, hsp, -, hwords⟩ := h
  cases i with
  | poppc => simp only [pcAfter, hsp, hwords s.sp List.mem_cons_self]
  | _ => simp only [pcAfter, hpc]

/-- POPSP sets `sp` to a word that it reads; every other instruction moves `sp` by a constant. -/
theorem spAfter_eq : spAfter i t = spAfter i s := by
  obtain ⟨-, hsp, hidim, hwords⟩ := h
  cases i with
  | popsp => simp only [spAfter, hsp, hwords s.sp List.mem_cons_self]
  | _ => simp only [spAfter, hsp, hidim]

theorem idimAfter_eq : idimAfter i t = idimAfter i s := by
  rw [idimAfter, idimAfter, h.idim]

end sameInputs

end Sys2Proof.Machine
end

section
/-! PROOFS. Two machines that differ in BYTE_ORDER, with every aligned word of storage the same (20_memory.md R47, as
presumed: log 13; 70_reset_and_hazards.md R194). -/

namespace Sys2Proof.Machine

/-- On an aligned platform an aligned address is a multiple of 4 from its region's base (R194). -/
theorem offset_aligned {s : State} {a : Word} {i off : Nat} (hp : s.alignedPlatform) (ha : wordAligned a = true)
    (h : s.translate a = some (i, off)) : off % 4 = 0 := by
  obtain ⟨r, hr, hra, rfl⟩ := translateIn_some s.regions a i off h
  have hbase := (wordAligned_iff r.base).1 (hp r (List.mem_of_getElem? hr)).1
  rw [wordAligned_iff] at ha
  omega

/-- Reversal within an aligned word takes its byte `k` to its byte `3 - k`. -/
theorem mirrorOffset_add {off k : Nat} (hoff : off % 4 = 0) (hk : k < 4) : mirrorOffset (off + k) = off + (3 - k) := by
  unfold mirrorOffset
  omega

/-- Reversal keeps every byte inside or outside an aligned word. -/
theorem mirrorOffset_in_word_iff {off k : Nat} (hoff : off % 4 = 0) :
    (off ≤ mirrorOffset k ∧ mirrorOffset k < off + 4) ↔ (off ≤ k ∧ k < off + 4) := by
  unfold mirrorOffset
  omega

namespace mirrored

variable {s t : State} (h : mirrored s t)
include h

theorem byteOrder_eq : t.cfg.byteOrder = s.cfg.byteOrder.other := by
  rw [h.cfg]

theorem translate_eq (a : Word) : t.translate a = s.translate a := translateIn_congr t.regions s.regions a h.geometry

theorem wordDefined_eq (a : Word) : t.wordDefined a = s.wordDefined a := by
  simp only [State.wordDefined, h.translate_eq, regionSize_congr t.regions s.regions _ h.geometry]

section
variable (hp : s.alignedPlatform) {a : Word} (ha : wordAligned a = true)
include hp ha

/-- The mirrored machine reads the same aligned word: the reversed bytes in the other order. -/
theorem readWord_eq : t.readWord a = s.readWord a := by
  cases hs : s.translate a with
  | none => rw [readWord_unmapped hs, readWord_unmapped ((h.translate_eq a).trans hs)]
  | some x =>
    obtain ⟨i, off⟩ := x
    have hoff : off % 4 = 0 := offset_aligned hp ha hs
    have hbyte : ∀ k < 4, storageByte t.regions i (off + k) = storageByte s.regions i (off + (3 - k)) := fun k hk => by
      rw [h.bytes, mirrorOffset_add hoff hk]
    have hfirst : storageByte t.regions i off = storageByte s.regions i (off + 3) := hbyte 0 (by omega)
    rw [readWord_of_translate hs, readWord_of_translate ((h.translate_eq a).trans hs), h.byteOrder_eq, fromWire_other,
      hfirst, hbyte 1 (by omega), hbyte 2 (by omega), hbyte 3 (by omega)]
    rfl

/-- The same aligned word written on both leaves the bytes reversed. -/
theorem storageByte_writeWordRegions_eq (v : Word) (j k : Nat) :
    storageByte (t.writeWordRegions a v) j k = storageByte (s.writeWordRegions a v) j (mirrorOffset k) := by
  cases hs : s.translate a with
  | none =>
    rw [writeWordRegions_unmapped s a v hs, writeWordRegions_unmapped t a v ((h.translate_eq a).trans hs), h.bytes]
  | some x =>
    obtain ⟨i, off⟩ := x
    have hoff : off % 4 = 0 := offset_aligned hp ha hs
    rw [storageByte_writeWordRegions s a v i off j _ hs,
      storageByte_writeWordRegions t a v i off j k ((h.translate_eq a).trans hs)]
    by_cases hin : j = i ∧ off ≤ k ∧ k < off + 4
    · obtain ⟨hji, hle, hlt⟩ := hin
      obtain ⟨m, rfl⟩ := Nat.exists_eq_add_of_le hle
      have hm : m < 4 := by omega
      rw [if_pos ⟨hji, hle, hlt⟩, if_pos ⟨hji, (mirrorOffset_in_word_iff hoff).2 ⟨hle, hlt⟩⟩, h.byteOrder_eq,
        mirrorOffset_add hoff hm, Nat.add_sub_cancel_left, Nat.add_sub_cancel_left, toWire_other _ v m hm]
    · rw [if_neg hin, if_neg (by rwa [mirrorOffset_in_word_iff hoff]), h.bytes]

end

section
variable (hp : s.alignedPlatform) {i : Instr} (haligned : ∀ a ∈ wordAccesses i s, wordAligned a = true)
include hp haligned

theorem sameInputs_of_aligned : sameInputs i s t :=
  ⟨h.pc, h.sp, h.idim, fun a ha => h.readWord_eq hp (haligned a ha)⟩

/-- Both machines leave region tables of the same geometry, with the storage bytes reversed. -/
theorem regionsAfter_mirrored :
    Machine.geometry (regionsAfter i t) = Machine.geometry (regionsAfter i s) ∧
      ∀ j k, storageByte (regionsAfter i t) j k = storageByte (regionsAfter i s) j (mirrorOffset k) := by
  have hsame := h.sameInputs_of_aligned hp haligned
  cases hs : storedAddress i s with
  | none =>
    rw [regionsAfter_of_storedAddress_none hs, regionsAfter_of_storedAddress_none (hsame.storedAddress_eq.trans hs)]
    exact ⟨h.geometry, h.bytes⟩
  | some a =>
    rw [regionsAfter_of_storedAddress hs, regionsAfter_of_storedAddress (hsame.storedAddress_eq.trans hs),
      hsame.storedWord_eq, geometry_writeWordRegions, geometry_writeWordRegions]
    exact ⟨h.geometry,
      h.storageByte_writeWordRegions_eq hp (haligned a (storedAddress_mem_wordAccesses hs)) (storedWord i s)⟩

theorem stateAfter_mirrored : mirrored (stateAfter i s) (stateAfter i t) :=
  have hsame := h.sameInputs_of_aligned hp haligned
  have hregions := h.regionsAfter_mirrored hp haligned
  { cfg := h.cfg
    geometry := hregions.1
    bytes := hregions.2
    pc := hsame.pcAfter_eq
    sp := hsame.spAfter_eq
    idim := hsame.idimAfter_eq }

theorem accessesDefined_mirrored (hdef : accessesDefined i s) : accessesDefined i t := by
  intro a ha
  rw [(h.sameInputs_of_aligned hp haligned).wordAccesses_eq] at ha
  rw [h.wordDefined_eq]
  exact hdef a ha

end

end mirrored

/-- Settles O54: the mirrored machine makes the same accesses and reads the same words, so it stores the same word, whose
bytes lie in the other order. -/
theorem byteOrderIsInvisibleToAlignedPrograms : Obligations.ByteOrderIsInvisibleToAlignedPrograms := by
  intro i s t s' hp hmirror haligned hexec
  obtain ⟨hdef, rfl⟩ := (exec_next_iff i s s').1 hexec
  exact ⟨stateAfter i t, (exec_next_iff i t _).2 ⟨hmirror.accessesDefined_mirrored hp haligned hdef, rfl⟩,
    hmirror.stateAfter_mirrored hp haligned⟩

end Sys2Proof.Machine
end

section
/-! PROOFS. The five opcode formats (30_encoding.md R73): what the byte of each decodes to, that each operand's field and the
operand determine each other (R76, R77), and that the formats make up all 256 bytes (R72, R78). -/

namespace Sys2Proof

/-! ### The operands and their fields -/

/-- The XOR of R76 undoes itself on a word offset that fits the field. -/
theorem offsetOfField_fieldOfOffset {k : Nat} (hk : k < 32) : offsetOfField (fieldOfOffset k) = k := by
  rw [offsetOfField, fieldOfOffset, BitVec.xor_assoc, BitVec.xor_self, BitVec.xor_zero, BitVec.toNat_ofNat,
    Nat.mod_eq_of_lt hk]

/-- The XOR of R76 undoes itself on a field. -/
theorem fieldOfOffset_offsetOfField (f : BitVec 5) : fieldOfOffset (offsetOfField f) = f := by
  rw [offsetOfField, fieldOfOffset, BitVec.ofNat_toNat, BitVec.setWidth_eq, BitVec.xor_assoc, BitVec.xor_self,
    BitVec.xor_zero]

theorem offsetOfField_lt (f : BitVec 5) : offsetOfField f < 32 := (f ^^^ 0x10#5).isLt

/-! ### What the bytes of a format decode to -/

theorem decodeByte_im (p : BitVec 7) : decodeByte (0b1#1 ++ p) = .im p := by
  revert p
  decide

theorem decodeByte_storesp (f : BitVec 5) : decodeByte (0b010#3 ++ f) = .storesp (offsetOfField f) := by
  revert f
  decide

theorem decodeByte_loadsp (f : BitVec 5) : decodeByte (0b011#3 ++ f) = .loadsp (offsetOfField f) := by
  revert f
  decide

theorem decodeByte_addsp (g : BitVec 4) : decodeByte (0b0001#4 ++ g) = .addsp g.toNat := by
  revert g
  decide

theorem decodeByte_emulate (n : BitVec 5) : decodeByte (0b001#3 ++ n) = .emulate n.toNat := by
  revert n
  decide

/-- The 16 bytes without an operand: each decodes to an instruction whose byte it is. -/
theorem decodeByte_fixed (c : BitVec 4) :
    (decodeByte (0b0000#4 ++ c)).WellFormed ∧ encodeByte (decodeByte (0b0000#4 ++ c)) = 0b0000#4 ++ c := by
  revert c
  decide

/-- Every byte is of one of the formats of R73, by its top bits. -/
theorem byte_format (op : Byte) :
    (∃ p : BitVec 7, op = 0b1#1 ++ p) ∨ (∃ f : BitVec 5, op = 0b010#3 ++ f) ∨ (∃ f : BitVec 5, op = 0b011#3 ++ f) ∨
      (∃ g : BitVec 4, op = 0b0001#4 ++ g) ∨ (∃ n : BitVec 5, op = 0b001#3 ++ n) ∨ ∃ c : BitVec 4, op = 0b0000#4 ++ c := by
  have h : ∀ op : Byte, op = 0b1#1 ++ op.extractLsb' 0 7 ∨ op = 0b010#3 ++ op.extractLsb' 0 5 ∨
      op = 0b011#3 ++ op.extractLsb' 0 5 ∨ op = 0b0001#4 ++ op.extractLsb' 0 4 ∨
      op = 0b001#3 ++ op.extractLsb' 0 5 ∨ op = 0b0000#4 ++ op.extractLsb' 0 4 := by decide
  exact (h op).imp (⟨_, ·⟩) (.imp (⟨_, ·⟩) (.imp (⟨_, ·⟩) (.imp (⟨_, ·⟩) (.imp (⟨_, ·⟩) (⟨_, ·⟩)))))

/-! ### Decoding and encoding are inverse -/

/-- Decoding the byte of a well-formed instruction gives it back. -/
theorem decodeByte_encodeByte {i : Instr} (h : i.WellFormed) : decodeByte (encodeByte i) = i := by
  cases i with
  | im p => exact decodeByte_im p
  | storesp k =>
    exact (decodeByte_storesp _).trans (congrArg Instr.storesp (offsetOfField_fieldOfOffset (of_decide_eq_true h)))
  | loadsp k =>
    exact (decodeByte_loadsp _).trans (congrArg Instr.loadsp (offsetOfField_fieldOfOffset (of_decide_eq_true h)))
  | addsp g =>
    exact (decodeByte_addsp _).trans (congrArg Instr.addsp (Nat.mod_eq_of_lt (of_decide_eq_true h)))
  | emulate n =>
    exact (decodeByte_emulate _).trans (congrArg Instr.emulate (Nat.mod_eq_of_lt (of_decide_eq_true h)))
  | _ => rfl

/-- Settles O3: an instruction is one byte, which decodes back to it. -/
theorem decodeInvertsEncode : Obligations.DecodeInvertsEncode := by
  intro i rest h
  calc decode (encode i ++ rest) = .ok (decodeByte (encodeByte i), rest) := rfl
    _ = .ok (i, rest) := by rw [decodeByte_encodeByte h]

/-- Settles O4: format by format, the decoded operand is in range and its field is the byte's. -/
theorem encodeInvertsDecode : Obligations.EncodeInvertsDecode := by
  intro op
  rcases byte_format op with ⟨p, rfl⟩ | ⟨f, rfl⟩ | ⟨f, rfl⟩ | ⟨g, rfl⟩ | ⟨n, rfl⟩ | ⟨c, rfl⟩
  · rw [decodeByte_im]
    exact ⟨rfl, rfl⟩
  · rw [decodeByte_storesp, encodeByte, fieldOfOffset_offsetOfField]
    exact ⟨decide_eq_true (offsetOfField_lt f), rfl⟩
  · rw [decodeByte_loadsp, encodeByte, fieldOfOffset_offsetOfField]
    exact ⟨decide_eq_true (offsetOfField_lt f), rfl⟩
  · rw [decodeByte_addsp, encodeByte, BitVec.ofNat_toNat, BitVec.setWidth_eq]
    exact ⟨decide_eq_true g.isLt, rfl⟩
  · rw [decodeByte_emulate, encodeByte, BitVec.ofNat_toNat, BitVec.setWidth_eq]
    exact ⟨decide_eq_true n.isLt, rfl⟩
  · exact decodeByte_fixed c

/-- Settles O1: closed bytes, which the decoder evaluates. -/
theorem sampleBytesDecodeAsTheOpcodeMapSays : Obligations.SampleBytesDecodeAsTheOpcodeMapSays := by
  unfold Obligations.SampleBytesDecodeAsTheOpcodeMapSays
  decide

end Sys2Proof
end

section
/-! PROOFS. The rows of the opcode table as masks and match values (30_encoding.md R72, R74). -/

namespace Sys2Proof

/-- The byte of a well-formed instruction is selected by the row of its mnemonic: the laws of Laws/PerInstr.lean, together. -/
theorem encodingMatchesRow (i : Instr) : Laws.EncodingMatchesRow.Statement i := by
  cases i with
  | im p => exact Laws.EncodingMatchesRow.im p
  | storesp k => exact Laws.EncodingMatchesRow.storesp k
  | loadsp k => exact Laws.EncodingMatchesRow.loadsp k
  | addsp g => exact Laws.EncodingMatchesRow.addsp g
  | emulate n => exact Laws.EncodingMatchesRow.emulate n
  | poppc => exact Laws.EncodingMatchesRow.poppc
  | load => exact Laws.EncodingMatchesRow.load
  | store => exact Laws.EncodingMatchesRow.store
  | pushsp => exact Laws.EncodingMatchesRow.pushsp
  | popsp => exact Laws.EncodingMatchesRow.popsp
  | add => exact Laws.EncodingMatchesRow.add
  | and => exact Laws.EncodingMatchesRow.and
  | or => exact Laws.EncodingMatchesRow.or
  | not => exact Laws.EncodingMatchesRow.not
  | flip => exact Laws.EncodingMatchesRow.flip
  | nop => exact Laws.EncodingMatchesRow.nop
  | breakpoint => exact Laws.EncodingMatchesRow.breakpoint
  | unsupported01 => exact Laws.EncodingMatchesRow.unsupported01
  | unsupported03 => exact Laws.EncodingMatchesRow.unsupported03
  | unsupported0E => exact Laws.EncodingMatchesRow.unsupported0E
  | unsupported0F => exact Laws.EncodingMatchesRow.unsupported0F

/-- Two rows that select one byte agree on the bits that both fix. -/
theorem fixedBits_and_mask_of_selects {row row' : OpcodeRow} {op : Byte} (h : row.selects op = true)
    (h' : row'.selects op = true) : row.fixedBits &&& row'.mask = row'.fixedBits &&& row.mask := by
  rw [← of_decide_eq_true h, ← of_decide_eq_true h', BitVec.and_assoc, BitVec.and_assoc, BitVec.and_comm row.mask]

/-- No two rows agree on the bits that both fix. -/
theorem eq_of_fixedBits_and_mask : ∀ row ∈ opcodeRows, ∀ row' ∈ opcodeRows,
    row.fixedBits &&& row'.mask = row'.fixedBits &&& row.mask → row = row' := by decide

/-- No two rows have one mnemonic. -/
theorem filter_mnemonic : ∀ row ∈ opcodeRows, opcodeRows.filter (fun r => r.mnemonic = row.mnemonic) = [row] := by
  decide

/-- Settles O2: the row of the decoded mnemonic selects the byte, and two rows that select one byte are equal. -/
theorem opcodeRowsPartitionTheBytes : Obligations.OpcodeRowsPartitionTheBytes := by
  intro op
  obtain ⟨hwf, hbyte⟩ := encodeInvertsDecode op
  obtain ⟨row, hrow, hname, hsel⟩ := encodingMatchesRow (decodeByte op) hwf
  rw [hbyte] at hsel
  have hsame : opcodeRows.filter (fun r => r.selects op) = opcodeRows.filter fun r => r.mnemonic = row.mnemonic := by
    refine List.filter_congr fun r hr => Bool.eq_iff_iff.2 ⟨fun hrsel => ?_, fun hrname => ?_⟩
    · rw [eq_of_fixedBits_and_mask r hr row hrow (fixedBits_and_mask_of_selects hrsel hsel)]
      exact decide_eq_true rfl
    · have hmem : r ∈ [row] := filter_mnemonic row hrow ▸ List.mem_filter.2 ⟨hr, hrname⟩
      rwa [List.mem_singleton.1 hmem]
  rw [hsame, ← hname, filter_mnemonic row hrow]
  exact ⟨rfl, rfl⟩

end Sys2Proof
end

section
/-! PROOFS. The step as the decoded instruction (30_encoding.md R70, R71), and what it reports (60_exceptions.md R164). -/

namespace Sys2Proof.Machine

/-- Settles O5: `step` is `exec` of the decoded byte, and every byte decodes to a well-formed instruction. -/
theorem stepRunsTheDecodedInstruction : Obligations.StepRunsTheDecodedInstruction := by
  refine ⟨fun s i h _ => ?_, fun s => ⟨s.fetchInstr, rfl, (encodeInvertsDecode s.fetchByte).1⟩⟩
  cases h
  rfl

/-- The step's block is the decoded instruction's, begun with what the fetch reports. -/
theorem stepBlock_run (t : Transaction) :
    stepBlock t = blockOf t.state.fetchInstr (t.noted (t.state.byteReport t.state.pc)) := by
  simp only [stepBlock, fetchOpcode, bind_run, readPc_run, memReadByte_run]
  rfl

/-- What a step reports: the instruction's own set with the fetch's, or the instruction's refusal. -/
theorem stepReport_eq (s : State) :
    stepReport s = (execReport s.fetchInstr s).map fun r => (s.byteReport s.pc).union r := by
  have hblock := blockOf_reported s.fetchInstr s (Report.empty.union (s.byteReport s.pc))
  rw [stepReport, execReport, reportOf, reportOf, stepBlock_run, Transaction.noted, hblock, union_empty]
  cases blockOf s.fetchInstr ⟨s, Report.empty⟩ <;> rfl

/-- Settles O6: `stepReport_eq` on a report and on a refusal. -/
theorem stepReportsFetchAndInstruction : Obligations.StepReportsFetchAndInstruction := by
  intro s
  refine ⟨fun r h => ?_, fun e h => ?_⟩
  · rw [stepReport_eq, h]
    rfl
  · rw [stepReport_eq, h]
    rfl

end Sys2Proof.Machine
end

section
/-! PROOFS. The word of a run of IM payloads (30_encoding.md R75, R91): the sign extension of the run's bits; and the payloads
of CONST (R82), which make it the word itself. -/

namespace Sys2Proof

open Machine

/-- The payloads of the low `7 * n` bits of `w`, most significant chunk first. -/
def payloadChunks (w : Word) (n : Nat) : List (BitVec 7) :=
  match n with
  | 0 => []
  | n + 1 => (w.sshiftRight (7 * n)).extractLsb' 0 7 :: payloadChunks w n

/-- `w` is the sign extension of its low `m` bits. -/
abbrev isSext (w : Word) (m : Nat) : Prop := (w.setWidth m).signExtend 32 = w

theorem map_range_chunks (w : Word) (n : Nat) :
    ((List.range n).map fun j => (w.sshiftRight (7 * (n - 1 - j))).extractLsb' 0 7) = payloadChunks w n := by
  induction n with
  | zero => rfl
  | succ n ih =>
    rw [List.range_succ_eq_map, List.map_cons, List.map_map, payloadChunks, ← ih]
    refine congrArg₂ List.cons rfl (List.map_congr_left fun j _ => ?_)
    rw [Function.comp_apply, Nat.succ_eq_add_one, show n + 1 - 1 - (j + 1) = n - 1 - j by omega]

theorem constPayloads_eq (w : Word) : constPayloads w = payloadChunks w (constLength w) :=
  map_range_chunks w (constLength w)

theorem length_payloadChunks (w : Word) (n : Nat) : (payloadChunks w n).length = n := by
  induction n with
  | zero => rfl
  | succ n ih => rw [payloadChunks, List.length_cons, ih]

/-! ### The bits of a run's word -/

/-- The payloads after the first reach only the low `7 * ps.length` bits. -/
theorem getLsbD_imTail_of_le (ps : List (BitVec 7)) (i : Nat) (h : 7 * ps.length ≤ i) : (imTail ps).getLsbD i = false := by
  induction ps with
  | nil => simp [imTail]
  | cons p ps ih =>
    rw [List.length_cons] at h
    have hp : p.getLsbD (i - 7 * ps.length) = false := BitVec.getLsbD_of_ge p _ (by omega)
    simp [imTail, ih (by omega), hp]

/-- A bit above those of the payloads after the first is the first payload's, or a copy of its sign bit. -/
theorem getLsbD_imRunWord_of_le (p : BitVec 7) (ps : List (BitVec 7)) (i : Nat) (h : 7 * ps.length ≤ i) (hi : i < 32) :
    (imRunWord p ps).getLsbD i = if i - 7 * ps.length < 7 then p.getLsbD (i - 7 * ps.length) else p.msb := by
  rw [imRunWord, BitVec.getLsbD_or, getLsbD_imTail_of_le ps i h, BitVec.getLsbD_shiftLeft, imStart,
    BitVec.getLsbD_signExtend]
  simp [hi, Nat.not_lt.2 h, show i - 7 * ps.length < 32 by omega]

/-- The word of a run of `k` payloads is the sign extension of its low `7 * k` bits. -/
theorem isSext_imRunWord (p : BitVec 7) (ps : List (BitVec 7)) (h : 7 * (ps.length + 1) < 32) :
    isSext (imRunWord p ps) (7 * (ps.length + 1)) := by
  refine BitVec.eq_of_getLsbD_eq fun i hi => ?_
  rw [BitVec.getLsbD_signExtend, BitVec.getLsbD_setWidth, BitVec.msb_setWidth]
  by_cases hlow : i < 7 * (ps.length + 1)
  · simp [hi, hlow]
  · have hsign : (imRunWord p ps).getLsbD (7 * (ps.length + 1) - 1) = p.msb := by
      rw [getLsbD_imRunWord_of_le p ps _ (by omega) (by omega), if_pos (by omega), BitVec.msb_eq_getLsbD_last]
      congr 1
      omega
    rw [getLsbD_imRunWord_of_le p ps i (by omega) hi, hsign, if_neg hlow, if_neg (by omega)]
    simp [hi]

/-- The bits of a chunk of `w` are `w`'s, up to its last. -/
theorem getLsbD_chunk (w : Word) (n : Nat) {j : Nat} (hj : j < 7) (h : 7 * n + j < 32) :
    ((w.sshiftRight (7 * n)).extractLsb' 0 7).getLsbD j = w.getLsbD (7 * n + j) := by
  rw [BitVec.getLsbD_extractLsb', BitVec.getLsbD_sshiftRight, Nat.zero_add, if_pos h]
  simp [hj, show ¬ 32 ≤ j by omega]

/-- The tail of `w`'s chunks is made of `w`'s own low bits. -/
theorem getLsbD_imTail_payloadChunks (w : Word) (n i : Nat) (hi : i < 32) :
    (imTail (payloadChunks w n)).getLsbD i = (decide (i < 7 * n) && w.getLsbD i) := by
  induction n with
  | zero => simp [payloadChunks, imTail]
  | succ n ih =>
    rw [payloadChunks, imTail, length_payloadChunks, BitVec.getLsbD_or, ih, BitVec.getLsbD_shiftLeft,
      BitVec.getLsbD_setWidth]
    by_cases hlow : i < 7 * n
    · simp [hlow, show i < 7 * (n + 1) by omega]
    by_cases hchunk : i < 7 * (n + 1)
    · rw [getLsbD_chunk w n (by omega) (by omega), Nat.add_sub_of_le (Nat.not_lt.1 hlow)]
      simp [hi, hlow, hchunk, show i - 7 * n < 32 by omega]
    · rw [BitVec.getLsbD_of_ge _ (i - 7 * n) (by omega)]
      simp [hlow, hchunk]

/-- The chunks of `w` give the sign extension of the low bits that they hold. -/
theorem imRunWord_payloadChunks (w : Word) (n : Nat) :
    imRunWord ((w.sshiftRight (7 * n)).extractLsb' 0 7) (payloadChunks w n) =
      (w.setWidth (7 * (n + 1))).signExtend 32 := by
  refine BitVec.eq_of_getLsbD_eq fun i hi => ?_
  rw [BitVec.getLsbD_signExtend, BitVec.getLsbD_setWidth, BitVec.msb_setWidth]
  by_cases hlow : i < 7 * n
  · rw [imRunWord, BitVec.getLsbD_or, length_payloadChunks, BitVec.getLsbD_shiftLeft,
      getLsbD_imTail_payloadChunks w n i hi]
    simp [hi, hlow, show i < 7 * (n + 1) by omega]
  rw [getLsbD_imRunWord_of_le _ _ i (by rw [length_payloadChunks]; omega) hi, length_payloadChunks]
  by_cases hchunk : i < 7 * (n + 1)
  · rw [if_pos (by omega), getLsbD_chunk w n (by omega) (by omega), Nat.add_sub_of_le (Nat.not_lt.1 hlow)]
    simp [hi, hchunk]
  · rw [if_neg (by omega), BitVec.msb_eq_getLsbD_last, getLsbD_chunk w n (by omega) (by omega)]
    simp [hi, hchunk, show 7 * (n + 1) - 1 = 7 * n + 6 by omega]

/-! ### How many payloads a word takes -/

/-- R82's range of `k` IM bytes: the words that are the sign extension of their low `7 * k` bits. -/
theorem fitsPayloads_iff (w : Word) {k : Nat} (hk : 0 < k) (h : 7 * k ≤ 32) : fitsPayloads w k ↔ isSext w (7 * k) := by
  rw [isSext, ← BitVec.toInt_inj, BitVec.toInt_signExtend_of_le h]
  refine ⟨fun ⟨hlo, hhi⟩ => ?_, fun heq => ?_⟩
  · rw [← BitVec.signExtend_eq_setWidth_of_le w h]
    exact BitVec.toInt_ofInt_eq_self (by omega) hlo hhi
  · rw [fitsPayloads, ← heq]
    exact ⟨BitVec.le_toInt _, BitVec.toInt_lt⟩

/-- A word is the sign extension of itself. -/
theorem isSext_of_le (w : Word) {m : Nat} (h : 32 ≤ m) : isSext w m := by
  rw [isSext, BitVec.signExtend_eq_setWidth_of_le _ h, BitVec.setWidth_setWidth_of_le w h, BitVec.setWidth_eq]

/-- CONST takes enough payloads for its word. -/
theorem isSext_constLength (w : Word) : isSext w (7 * constLength w) := by
  unfold constLength
  split_ifs with h1 h2 h3 h4
  · exact (fitsPayloads_iff w (by omega) (by omega)).1 h1
  · exact (fitsPayloads_iff w (by omega) (by omega)).1 h2
  · exact (fitsPayloads_iff w (by omega) (by omega)).1 h3
  · exact (fitsPayloads_iff w (by omega) (by omega)).1 h4
  · exact isSext_of_le w (by omega)

theorem constLength_pos (w : Word) : 0 < constLength w := by
  unfold constLength
  split_ifs <;> omega

theorem constLength_le_five (w : Word) : constLength w ≤ 5 := by
  unfold constLength
  split_ifs <;> omega

/-- CONST takes no more payloads than R82's ranges ask for. -/
theorem constLength_le_of_fitsPayloads (w : Word) {k : Nat} (hk : 0 < k) (h : fitsPayloads w k) : constLength w ≤ k := by
  have hne : ∀ m, ¬ fitsPayloads w m → k ≠ m := fun m hm hkm => hm (hkm ▸ h)
  unfold constLength
  split_ifs with h1 h2 h3 h4
  · exact hk
  · have hk1 := hne 1 h1
    omega
  · have hk1 := hne 1 h1
    have hk2 := hne 2 h2
    omega
  · have hk1 := hne 1 h1
    have hk2 := hne 2 h2
    have hk3 := hne 3 h3
    omega
  · have hk1 := hne 1 h1
    have hk2 := hne 2 h2
    have hk3 := hne 3 h3
    have hk4 := hne 4 h4
    omega

/-- The payloads of CONST `w` are a run that builds `w` (R82). -/
theorem exists_constPayloads_eq_cons (w : Word) : ∃ p ps, constPayloads w = p :: ps ∧ imRunWord p ps = w := by
  obtain ⟨n, hn⟩ : ∃ n, constLength w = n + 1 := Nat.exists_eq_add_one.2 (constLength_pos w)
  have hsext := isSext_constLength w
  rw [hn] at hsext
  exact ⟨_, payloadChunks w n, by rw [constPayloads_eq, hn, payloadChunks],
    (imRunWord_payloadChunks w n).trans hsext⟩

/-- No run that builds `w` is shorter than CONST `w` (R82). -/
theorem constLength_imRunWord_le (p : BitVec 7) (ps : List (BitVec 7)) :
    constLength (imRunWord p ps) ≤ ps.length + 1 := by
  by_cases hlong : 5 ≤ ps.length + 1
  · exact (constLength_le_five _).trans hlong
  · exact constLength_le_of_fitsPayloads _ ps.length.succ_pos
      ((fitsPayloads_iff _ ps.length.succ_pos (by omega)).2 (isSext_imRunWord p ps (by omega)))

end Sys2Proof
end

section
/-! PROOFS. A run of IM bytes as a run of `exec`: the first pushes, each other extends the word in place (30_encoding.md R75,
R82, 40_im.md R90, R91). -/

namespace Sys2Proof.Machine

/-- An instruction whose accesses are defined hands its row's state to the rest of the run. -/
theorem execRun_cons {i : Instr} {s : State} (is : List Instr) (h : accessesDefined i s) :
    execRun (i :: is) s = execRun is (stateAfter i s) := by
  rw [execRun, (exec_next_iff i s (stateAfter i s)).2 ⟨h, rfl⟩]

/-- The state after IM bytes with the payloads `ps`, none of whose accesses is refused. -/
def afterIms (s : State) (ps : List (BitVec 7)) : State := ps.foldl (fun u p => stateAfter (.im p) u) s

@[simp] theorem afterIms_nil (s : State) : afterIms s [] = s := rfl

@[simp] theorem afterIms_cons (s : State) (p : BitVec 7) (ps : List (BitVec 7)) :
    afterIms s (p :: ps) = afterIms (stateAfter (.im p) s) ps := rfl

/-! ### One IM -/

/-- R90, the branch that starts a value. -/
theorem stateAfter_im_start {s : State} (p : BitVec 7) (h : s.idim = false) :
    stateAfter (.im p) s = (((s.writeWord (s.sp - 4#32) (imStart p)).withSp (s.sp - 4#32)).withIdim true).withPc
      (s.pc + 1#32) := by
  obtain ⟨cfg, regions, pc, sp, idim⟩ := s
  cases h
  rfl

/-- R90, the branch that extends a value. -/
theorem stateAfter_im_extend {s : State} (p : BitVec 7) (h : s.idim = true) :
    stateAfter (.im p) s = ((s.writeWord s.sp (imExtend (s.readWord s.sp) p)).withIdim true).withPc (s.pc + 1#32) := by
  obtain ⟨cfg, regions, pc, sp, idim⟩ := s
  cases h
  rfl

theorem accessesDefined_im_start {s : State} (p : BitVec 7) (h : s.idim = false)
    (hdef : s.wordDefined (s.sp - 4#32) = true) : accessesDefined (.im p) s := by
  simp [accessesDefined, wordAccesses, h, hdef]

theorem accessesDefined_im_extend {s : State} (p : BitVec 7) (h : s.idim = true) (hdef : s.wordDefined s.sp = true) :
    accessesDefined (.im p) s := by
  simp [accessesDefined, wordAccesses, h, hdef]

/-! ### A run that extends the word on top -/

theorem execRun_im_of_idim (ps : List (BitVec 7)) (s : State) (h : s.idim = true) (hdef : s.wordDefined s.sp = true) :
    execRun (ps.map .im) s = .next (afterIms s ps) := by
  induction ps generalizing s with
  | nil => rfl
  | cons p ps ih =>
    rw [List.map_cons, execRun_cons _ (accessesDefined_im_extend p h hdef), afterIms_cons]
    exact ih _ (by simp [stateAfter_im_extend p h]) (by simp [stateAfter_im_extend p h, hdef])

theorem afterIms_sp (ps : List (BitVec 7)) (s : State) (h : s.idim = true) : (afterIms s ps).sp = s.sp := by
  induction ps generalizing s with
  | nil => rfl
  | cons p ps ih =>
    have hstep := stateAfter_im_extend p h
    calc (afterIms (stateAfter (.im p) s) ps).sp = (stateAfter (.im p) s).sp := ih _ (by simp [hstep])
      _ = s.sp := by simp [hstep]

/-- Extending by one payload and then by a run is extending by the longer run (R75). -/
theorem imExtend_shiftLeft_or_imTail (old : Word) (p : BitVec 7) (ps : List (BitVec 7)) :
    (imExtend old p <<< (7 * ps.length)) ||| imTail ps = (old <<< (7 * (p :: ps).length)) ||| imTail (p :: ps) := by
  rw [imExtend, BitVec.shiftLeft_or_distrib, ← BitVec.shiftLeft_add, BitVec.or_assoc, imTail, List.length_cons,
    Nat.mul_succ, Nat.add_comm 7]

theorem readWord_afterIms (ps : List (BitVec 7)) (s : State) (h : s.idim = true) (hmapped : s.mapped s.sp = true) :
    (afterIms s ps).readWord s.sp = (s.readWord s.sp <<< (7 * ps.length)) ||| imTail ps := by
  induction ps generalizing s with
  | nil => simp [imTail]
  | cons p ps ih =>
    have hstep := stateAfter_im_extend p h
    have hword : (stateAfter (.im p) s).readWord s.sp = imExtend (s.readWord s.sp) p := by
      simp [hstep, readWord_writeWord_same _ hmapped]
    have hrest := ih (stateAfter (.im p) s) (by simp [hstep]) (by simp [hstep, hmapped])
    rw [show (stateAfter (.im p) s).sp = s.sp by simp [hstep], hword] at hrest
    rw [afterIms_cons, hrest, imExtend_shiftLeft_or_imTail]

/-! ### A run that starts a word -/

/-- From `idim` = 0 a run of IM bytes pushes the word of its payloads (R91). -/
theorem execRun_im_cons (p : BitVec 7) (ps : List (BitVec 7)) (s : State) (h : s.idim = false)
    (hmapped : s.mapped (s.sp - 4#32) = true) (hdef : s.wordDefined (s.sp - 4#32) = true) :
    execRun ((p :: ps).map .im) s = .next (afterIms s (p :: ps)) ∧ (afterIms s (p :: ps)).sp = s.sp - 4#32 ∧
      (afterIms s (p :: ps)).readWord (s.sp - 4#32) = imRunWord p ps := by
  have hstep := stateAfter_im_start p h
  have hidim : (stateAfter (.im p) s).idim = true := by simp [hstep]
  have hsp : (stateAfter (.im p) s).sp = s.sp - 4#32 := by simp [hstep]
  have hword : (stateAfter (.im p) s).readWord (s.sp - 4#32) = imStart p := by
    simp [hstep, readWord_writeWord_same _ hmapped]
  refine ⟨?_, ?_, ?_⟩
  · rw [List.map_cons, execRun_cons _ (accessesDefined_im_start p h hdef)]
    exact execRun_im_of_idim ps _ hidim (by rw [hsp]; simp [hstep, hdef])
  · rw [afterIms_cons, afterIms_sp ps _ hidim, hsp]
  · have hrest := readWord_afterIms ps _ hidim (by rw [hsp]; simp [hstep, hmapped])
    rw [hsp, hword] at hrest
    exact hrest

/-- The bytes of CONST decode to IMs with its payloads (R82). -/
theorem map_decodeByte_constBytes (w : Word) : (constBytes w).map decodeByte = (constPayloads w).map .im := by
  rw [constBytes, List.map_map]
  exact List.map_congr_left fun p _ => decodeByte_im p

/-- Settles O46: the payloads of CONST are a run that builds `w`, and no shorter run does. -/
theorem constLeavesItsWordOnTop : Obligations.ConstLeavesItsWordOnTop := by
  intro w
  refine ⟨fun s h hmapped hdef => ?_, fun p ps hw => ?_⟩
  · obtain ⟨p, ps, hpayloads, hword⟩ := exists_constPayloads_eq_cons w
    obtain ⟨hrun, hsp, hread⟩ := execRun_im_cons p ps s h hmapped hdef
    rw [map_decodeByte_constBytes, hpayloads]
    exact ⟨afterIms s (p :: ps), hrun, hsp, by rw [hsp, hread, hword]⟩
  · have hlength : (constBytes w).length = constLength w := by
      rw [constBytes, List.length_map, constPayloads_eq, length_payloadChunks]
    rw [hlength, ← hw]
    exact constLength_imRunWord_le p ps

end Sys2Proof.Machine
end

section
/-! PROOFS. IM (40_im.md): what one IM reports, its byte and its fetch (R90); and what a run of IMs leaves unchanged (R91). -/

namespace Sys2Proof.Machine

/-! ### One IM -/

/-- R90, R164: the branch that starts a value reports what its push gives. -/
theorem execReport_im_start {s : State} (p : BitVec 7) (h : s.idim = false) (hdef : s.wordDefined (s.sp - 4#32) = true) :
    execReport (.im p) s = .ok (s.wordReport (s.sp - 4#32)) := by
  rw [execReport, reportOf, blockOf, imBlock_run, if_neg (by simp [h]), if_pos hdef]
  exact congrArg Except.ok (union_empty _)

/-- R90, R164: the branch that extends a value reads and writes one word, which gives one report. -/
theorem execReport_im_extend {s : State} (p : BitVec 7) (h : s.idim = true) (hdef : s.wordDefined s.sp = true) :
    execReport (.im p) s = .ok (s.wordReport s.sp) := by
  rw [execReport, reportOf, blockOf, imBlock_run, if_pos h, if_pos hdef]
  exact congrArg Except.ok (union_empty _)

/-- An unmapped fetch reads 0x00, which is BREAKPOINT (R44, R71). -/
theorem fetchInstr_unmapped {s : State} (h : s.mapped s.pc = false) : s.fetchInstr = .breakpoint := by
  rw [State.fetchInstr, State.fetchByte, readByte_unmapped (mapped_eq_false_iff.1 h)]
  rfl

/-- The decoder's first test is bit 7 (R71). -/
theorem decodeByte_of_bit7 {op : Byte} (h : op &&& 0x80#8 = 0x80#8) : decodeByte op = .im (op.extractLsb' 0 7) := by
  rw [decodeByte, if_pos (by rw [h]; decide)]

/-- Settles O7: IM's row of R32 in each branch of `idim`, and a fetched IM is no BREAKPOINT. -/
theorem imPushesOrExtends : Obligations.ImPushesOrExtends := by
  refine ⟨fun op => decodeByte_of_bit7, fun s p => ⟨fun h hdef => ⟨?_, ?_⟩, fun h hdef => ⟨?_, ?_⟩, fun hfetch => ?_⟩⟩
  · exact (exec_next_iff _ _ _).2 ⟨accessesDefined_im_start p h hdef, (stateAfter_im_start p h).symm⟩
  · exact execReport_im_start p h hdef
  · exact (exec_next_iff _ _ _).2 ⟨accessesDefined_im_extend p h hdef, (stateAfter_im_extend p h).symm⟩
  · exact execReport_im_extend p h hdef
  · by_contra hunmapped
    rw [fetchInstr_unmapped (Bool.eq_false_of_not_eq_true hunmapped)] at hfetch
    cases hfetch

/-! ### What a run of IMs does to `pc` and `idim` -/

theorem afterIms_pc (ps : List (BitVec 7)) (s : State) : (afterIms s ps).pc = s.pc + BitVec.ofNat 32 ps.length := by
  induction ps generalizing s with
  | nil => simp
  | cons p ps ih =>
    calc (afterIms (stateAfter (.im p) s) ps).pc = s.pc + 1#32 + BitVec.ofNat 32 ps.length := ih _
      _ = s.pc + BitVec.ofNat 32 (ps.length + 1) := by
        rw [BitVec.add_assoc, ← BitVec.ofNat_add, Nat.add_comm]

theorem afterIms_idim (ps : List (BitVec 7)) (s : State) (h : s.idim = true) : (afterIms s ps).idim = true := by
  induction ps generalizing s with
  | nil => exact h
  | cons p ps ih => exact ih _ rfl

/-! ### The frame of a run of IMs -/

/-- The memories of `s` and `t` differ at most in the word at `a`, which both look up alike. -/
structure sameOutsideWord (a : Word) (s t : State) : Prop where
  /-- the word is the same storage bytes in both -/
  lookup : t.translate a = s.translate a
  /-- the bytes at all other addresses are equal -/
  bytes : ∀ b : Word, ¬ inWordAt a b → t.readByte b = s.readByte b
  /-- all other storage bytes are equal, those that no address reaches included -/
  storage : ∀ j k : Nat, ¬ inStoredWord s a j k → storageByte t.regions j k = storageByte s.regions j k

theorem sameOutsideWord.refl (a : Word) (s : State) : sameOutsideWord a s s :=
  ⟨rfl, fun _ _ => rfl, fun _ _ _ => rfl⟩

theorem sameOutsideWord.trans {a : Word} {s t u : State} (hst : sameOutsideWord a s t) (htu : sameOutsideWord a t u) :
    sameOutsideWord a s u where
  lookup := htu.lookup.trans hst.lookup
  bytes b hb := (htu.bytes b hb).trans (hst.bytes b hb)
  storage j k hjk :=
    (htu.storage j k (by rwa [inStoredWord, hst.lookup])).trans (hst.storage j k hjk)

/-- A state whose memory is that of `s` with one word written at `a` (R46). -/
theorem sameOutsideWord_of_regions {a v : Word} {s t : State} (h : t.regions = s.writeWordRegions a v) :
    sameOutsideWord a s t where
  lookup :=
    calc t.translate a = (s.writeWord a v).translate a := congrArg (translateIn · a) h
      _ = s.translate a := translate_writeWord s a v a
  bytes b hb :=
    calc t.readByte b = (s.writeWord a v).readByte b := readByte_congr h b
      _ = s.readByte b := readByte_writeWord_of_not_inWordAt s a v b hb
  storage j k hjk := by
    rw [h]
    exact storageByte_writeWordRegions_of_not_inStoredWord s a v j k hjk

/-- An instruction changes no memory outside the word it stores (R32). -/
theorem sameOutsideWord_stateAfter {i : Instr} {s : State} {a : Word} (h : storedAddress i s = some a) :
    sameOutsideWord a s (stateAfter i s) :=
  sameOutsideWord_of_regions (regionsAfter_of_storedAddress h)

/-- A run that extends the word on top changes no memory outside it. -/
theorem sameOutsideWord_afterIms (ps : List (BitVec 7)) (s : State) (h : s.idim = true) :
    sameOutsideWord s.sp s (afterIms s ps) := by
  induction ps generalizing s with
  | nil => exact .refl s.sp s
  | cons p ps ih =>
    have hfirst : sameOutsideWord s.sp s (stateAfter (.im p) s) := sameOutsideWord_stateAfter (by simp [storedAddress, h])
    have hsp : (stateAfter (.im p) s).sp = s.sp := by simp [stateAfter_im_extend p h]
    have hrest := ih (stateAfter (.im p) s) rfl
    rw [hsp] at hrest
    exact hfirst.trans hrest

/-- From `idim` = 0 a run changes no memory outside the word below `sp`: its first IM pushes there, the others extend it. -/
theorem sameOutsideWord_afterIms_cons (p : BitVec 7) (ps : List (BitVec 7)) (s : State) (h : s.idim = false) :
    sameOutsideWord (s.sp - 4#32) s (afterIms s (p :: ps)) := by
  have hfirst : sameOutsideWord (s.sp - 4#32) s (stateAfter (.im p) s) :=
    sameOutsideWord_stateAfter (by simp [storedAddress, h])
  have hsp : (stateAfter (.im p) s).sp = s.sp - 4#32 := by simp [stateAfter_im_start p h]
  have hrest := sameOutsideWord_afterIms ps (stateAfter (.im p) s) rfl
  rw [hsp] at hrest
  exact hfirst.trans hrest

/-- Settles O45: the run's word (`execRun_im_cons`), registers and frame; and the payloads of CONST are a run of any word. -/
theorem imRunPushesOneWord : Obligations.ImRunPushesOneWord := by
  refine ⟨fun s p ps h hmapped hdef => ?_, fun w => ?_⟩
  · obtain ⟨hrun, hsp, hword⟩ := execRun_im_cons p ps s h hmapped hdef
    obtain ⟨-, hbytes, hstorage⟩ := sameOutsideWord_afterIms_cons p ps s h
    have hidim : (afterIms s (p :: ps)).idim = true := afterIms_idim ps (stateAfter (.im p) s) rfl
    exact ⟨afterIms s (p :: ps), hrun, hsp, hidim, afterIms_pc (p :: ps) s, hword, hbytes, hstorage⟩
  · obtain ⟨p, ps, hpayloads, hword⟩ := exists_constPayloads_eq_cons w
    have hlength : ps.length + 1 = constLength w := by
      rw [← List.length_cons, ← hpayloads, constPayloads_eq, length_payloadChunks]
    have hfive := constLength_le_five w
    exact ⟨p, ps, by omega, hword⟩

end Sys2Proof.Machine
end

section
/-! PROOFS. What an instruction reports, as one table (60_exceptions.md R164): the reports of its word accesses, in R32's
order. Whatever is claimed of an instruction's report follows from `execReport_of_accessesDefined`. -/

namespace Sys2Proof.Machine

/-- The conditions that word accesses at `as` from `s` report together (R45, R46). -/
def accessesReport (s : State) (as : List Word) : Report where
  unmappedAddress := as.any fun a => !s.mapped a
  misalignedAccess := s.cfg.alignCheck && as.any fun a => !wordAligned a

theorem accessesReport_nil (s : State) : accessesReport s [] = Report.empty := by
  simp [accessesReport, Report.empty]

/-- One more access adds its own conditions to the set. -/
theorem accessesReport_cons (s : State) (a : Word) (as : List Word) :
    accessesReport s (a :: as) = (s.wordReport a).union (accessesReport s as) := by
  simp [accessesReport, State.wordReport, Report.union, Bool.and_or_distrib_left]

/-- The conditions that instruction `i` reports when none of its accesses is refused: those of its accesses, or UnknownOpcode
alone (R152). -/
def reportAfter (i : Instr) (s : State) : Report :=
  match i with
  | .unsupported01 | .unsupported03 | .unsupported0E | .unsupported0F => Report.single .unknownOpcode
  | _ => accessesReport s (wordAccesses i s)

@[simp] theorem union_empty_right (r : Report) : r.union Report.empty = r := by
  simp [Report.union, Report.empty]

/-- The report of every instruction none of whose accesses is refused (R164). -/
theorem execReport_of_accessesDefined {i : Instr} {s : State} (h : accessesDefined i s) :
    execReport i s = .ok (reportAfter i s) := by
  cases i with
  | im p =>
    cases hidim : s.idim with
    | false =>
      have hpush : s.wordDefined (s.sp - 4#32) = true := h _ (by simp [wordAccesses, hidim])
      simp [execReport_im_start p hidim hpush, reportAfter, wordAccesses, hidim, accessesReport_cons, accessesReport_nil]
    | true =>
      have htop : s.wordDefined s.sp = true := h _ (by simp [wordAccesses, hidim])
      simp [execReport_im_extend p hidim htop, reportAfter, wordAccesses, hidim, accessesReport_cons, accessesReport_nil]
  | nop | breakpoint => exact congrArg Except.ok (accessesReport_nil s).symm
  | unsupported01 | unsupported03 | unsupported0E | unsupported0F => rfl
  | _ =>
    simp only [accessesDefined, wordAccesses, List.forall_mem_cons] at h
    simp [execReport, reportOf, blockOf, storespBlock_run, loadspBlock_run, addspBlock_run, emulateBlock_run,
      poppcBlock_run, loadBlock_run, storeBlock_run, pushspBlock_run, popspBlock_run, addBlock, andBlock, orBlock, notBlock,
      flipBlock, binaryBlock_run, unaryBlock_run, reportAfter, wordAccesses, h, accessesReport_cons, accessesReport_nil,
      union_assoc]

/-- An instruction none of whose accesses is refused: the state it leaves and the conditions it reports. -/
theorem exec_and_execReport_of_accessesDefined {i : Instr} {s : State} (h : accessesDefined i s) :
    exec i s = .next (stateAfter i s) ∧ execReport i s = .ok (reportAfter i s) :=
  ⟨(exec_next_iff i s _).2 ⟨h, rfl⟩, execReport_of_accessesDefined h⟩

end Sys2Proof.Machine
end

section
/-! PROOFS. A format as a mask (30_encoding.md R71, R73): a byte whose top bits are fixed is those bits followed by its
field; and R76's XOR on the whole byte. -/

namespace Sys2Proof

/-- Where a mask selects the top `m` bits and they are `c`, the word is `c` followed by its low `n` bits. -/
theorem eq_append_of_and_mask (m n : Nat) {x : BitVec (m + n)} {c : BitVec m}
    (h : x &&& (BitVec.allOnes m ++ 0#n) = c ++ 0#n) : x = c ++ x.extractLsb' 0 n := by
  refine BitVec.eq_of_getLsbD_eq fun i hi => ?_
  rw [BitVec.getLsbD_append]
  split
  · next hlow => simp [hlow]
  · next hhigh =>
    have hbit := congrArg (·.getLsbD i) h
    simp only [BitVec.getLsbD_and, BitVec.getLsbD_append, hhigh, if_false, BitVec.getLsbD_allOnes] at hbit
    rw [← hbit, decide_eq_true (by omega), Bool.and_true]

/-- R76's XOR may be done on the whole byte: it reaches no bit above the field. -/
theorem append_fieldOfOffset (c : BitVec 3) :
    ∀ k < 32, c ++ fieldOfOffset k = (c ++ 0#5) ||| (BitVec.ofNat 8 k ^^^ 0x10#8) := by
  revert c
  decide

end Sys2Proof
end

section
/-! PROOFS. STORESP, LOADSP and ADDSP (41_sp_offset.md R100 to R103): the words that each accesses lie at word offsets
from one `sp`, so they are aligned alike. -/

namespace Sys2Proof.Machine

section
variable {s : State} {k : Nat}

theorem reportAfter_storesp :
    reportAfter (.storesp k) s =
      { unmappedAddress := !s.mapped s.sp || !s.mapped (stackAddress s.sp k),
        misalignedAccess := s.cfg.alignCheck && !wordAligned s.sp } := by
  simp [reportAfter, wordAccesses, accessesReport]

theorem reportAfter_loadsp :
    reportAfter (.loadsp k) s =
      { unmappedAddress := !s.mapped (stackAddress s.sp k) || !s.mapped (s.sp - 4#32),
        misalignedAccess := s.cfg.alignCheck && !wordAligned s.sp } := by
  simp [reportAfter, wordAccesses, accessesReport]

/-- ADDSP reads and writes the word on top of the stack, and reports for it once. -/
theorem reportAfter_addsp :
    reportAfter (.addsp k) s =
      { unmappedAddress := !s.mapped s.sp || !s.mapped (stackAddress s.sp k),
        misalignedAccess := s.cfg.alignCheck && !wordAligned s.sp } := by
  simp [reportAfter, wordAccesses, accessesReport, Bool.or_comm]

end

/-- Settles O8: STORESP's format, and its row of R32 with the report of its two accesses. -/
theorem storespStoresThePoppedWord : Obligations.StorespStoresThePoppedWord := by
  refine ⟨fun op h => ?_, append_fieldOfOffset 0b010#3, fun s k htop haddr => ?_⟩
  · have hbyte : op = 0b010#3 ++ op.extractLsb' 0 5 := eq_append_of_and_mask 3 5 h
    exact (congrArg decodeByte hbyte).trans (decodeByte_storesp _)
  · have hdef : accessesDefined (.storesp k) s := List.forall_mem_cons.2 ⟨htop, List.forall_mem_singleton.2 haddr⟩
    have hexec := exec_and_execReport_of_accessesDefined hdef
    rwa [reportAfter_storesp] at hexec

/-- Settles O9: LOADSP's format, and its row of R32 with the report of its two accesses. -/
theorem loadspPushesTheOffsetWord : Obligations.LoadspPushesTheOffsetWord := by
  refine ⟨fun op h => ?_, append_fieldOfOffset 0b011#3, fun s k haddr hpush => ?_⟩
  · have hbyte : op = 0b011#3 ++ op.extractLsb' 0 5 := eq_append_of_and_mask 3 5 h
    exact (congrArg decodeByte hbyte).trans (decodeByte_loadsp _)
  · have hdef : accessesDefined (.loadsp k) s := List.forall_mem_cons.2 ⟨haddr, List.forall_mem_singleton.2 hpush⟩
    have hexec := exec_and_execReport_of_accessesDefined hdef
    rwa [reportAfter_loadsp] at hexec

/-- Settles O10: ADDSP's format, and its row of R32 with the report of its accesses. -/
theorem addspAddsTheOffsetWord : Obligations.AddspAddsTheOffsetWord := by
  refine ⟨fun op h => ?_, by decide, fun s g htop haddr => ?_⟩
  · have hbyte : op = 0b0001#4 ++ op.extractLsb' 0 4 := eq_append_of_and_mask 4 4 h
    exact (congrArg decodeByte hbyte).trans (decodeByte_addsp _)
  · have hdef : accessesDefined (.addsp g) s :=
      List.forall_mem_cons.2 ⟨htop, List.forall_mem_cons.2 ⟨haddr, List.forall_mem_singleton.2 htop⟩⟩
    have hexec := exec_and_execReport_of_accessesDefined hdef
    rwa [reportAfter_addsp] at hexec

end Sys2Proof.Machine
end

section
/-! PROOFS. An instruction and its byte as an equivalence (30_encoding.md R72, R73): exactly one byte decodes to it. -/

namespace Sys2Proof

/-- Exactly the byte of a well-formed instruction decodes to it: decoding and encoding undo each other (O3, O4). -/
theorem decodeByte_eq_iff {i : Instr} (h : i.WellFormed) (op : Byte) : decodeByte op = i ↔ op = encodeByte i := by
  constructor
  · rintro rfl
    exact (encodeInvertsDecode op).2.symm
  · rintro rfl
    exact decodeByte_encodeByte h

end Sys2Proof
end

section
/-! PROOFS. POPPC, LOAD and STORE (42_poppc_load_store.md R110 to R112): LOAD and STORE also access the word that the word on
top of the stack addresses, which may be unmapped or misaligned on its own. -/

namespace Sys2Proof.Machine

section
variable {s : State}

theorem reportAfter_poppc :
    reportAfter .poppc s =
      { unmappedAddress := !s.mapped s.sp,
        misalignedAccess := s.cfg.alignCheck && !wordAligned s.sp } := by
  simp [reportAfter, wordAccesses, accessesReport]

/-- LOAD reads and writes the word on top of the stack, and reports for it once. -/
theorem reportAfter_load :
    reportAfter .load s =
      { unmappedAddress := !s.mapped s.sp || !s.mapped (s.readWord s.sp),
        misalignedAccess := s.cfg.alignCheck && (!wordAligned s.sp || !wordAligned (s.readWord s.sp)) } := by
  simp [reportAfter, wordAccesses, accessesReport, Bool.or_comm]

/-- STORE's two pops are aligned alike. -/
theorem reportAfter_store :
    reportAfter .store s =
      { unmappedAddress := !s.mapped s.sp || !s.mapped (s.sp + 4#32) || !s.mapped (s.readWord s.sp),
        misalignedAccess := s.cfg.alignCheck && (!wordAligned s.sp || !wordAligned (s.readWord s.sp)) } := by
  simp [reportAfter, wordAccesses, accessesReport, Bool.or_assoc]

end

/-- Settles O12: POPPC's byte, and its row of R32 with the report of its pop. -/
theorem poppcJumpsToThePoppedWord : Obligations.PoppcJumpsToThePoppedWord := by
  refine ⟨decodeByte_eq_iff rfl, fun s htop => ?_⟩
  have hdef : accessesDefined .poppc s := List.forall_mem_singleton.2 htop
  have hexec := exec_and_execReport_of_accessesDefined hdef
  rwa [reportAfter_poppc] at hexec

/-- Settles O13: LOAD's byte, and its row of R32 with the report of its accesses, of which the first and the last are the
word on top of the stack. -/
theorem loadReplacesTheAddressByItsWord : Obligations.LoadReplacesTheAddressByItsWord := by
  refine ⟨decodeByte_eq_iff rfl, fun s htop haddr => ?_⟩
  have hdef : accessesDefined .load s :=
    List.forall_mem_cons.2 ⟨htop, List.forall_mem_cons.2 ⟨haddr, List.forall_mem_singleton.2 htop⟩⟩
  have hexec := exec_and_execReport_of_accessesDefined hdef
  rwa [reportAfter_load] at hexec

/-- Settles O14: STORE's byte, and its row of R32 with the report of its two pops and its write. -/
theorem storeWritesTheSecondWordAtTheFirst : Obligations.StoreWritesTheSecondWordAtTheFirst := by
  refine ⟨decodeByte_eq_iff rfl, fun s htop hsecond haddr => ?_⟩
  have hdef : accessesDefined .store s :=
    List.forall_mem_cons.2 ⟨htop, List.forall_mem_cons.2 ⟨hsecond, List.forall_mem_singleton.2 haddr⟩⟩
  have hexec := exec_and_execReport_of_accessesDefined hdef
  rwa [reportAfter_store] at hexec

end Sys2Proof.Machine
end

section
/-! PROOFS. PUSHSP and POPSP (43_pushsp_popsp.md R120, R121): one access each, and POPSP after PUSHSP reads back the `sp` that
PUSHSP stored. -/

namespace Sys2Proof.Machine

section
variable {s : State}

theorem reportAfter_pushsp :
    reportAfter .pushsp s =
      { unmappedAddress := !s.mapped (s.sp - 4#32),
        misalignedAccess := s.cfg.alignCheck && !wordAligned s.sp } := by
  simp [reportAfter, wordAccesses, accessesReport]

theorem reportAfter_popsp :
    reportAfter .popsp s =
      { unmappedAddress := !s.mapped s.sp,
        misalignedAccess := s.cfg.alignCheck && !wordAligned s.sp } := by
  simp [reportAfter, wordAccesses, accessesReport]

/-- POPSP's access after PUSHSP is PUSHSP's own: a word write moves no region, so it is contained as before (R41). -/
theorem accessesDefined_popsp_stateAfter_pushsp (h : s.wordDefined (s.sp - 4#32) = true) :
    accessesDefined .popsp (stateAfter .pushsp s) := by
  refine List.forall_mem_singleton.2 ?_
  calc (stateAfter .pushsp s).wordDefined (s.sp - 4#32)
      = (s.writeWord (s.sp - 4#32) s.sp).wordDefined (s.sp - 4#32) := rfl
    _ = s.wordDefined (s.sp - 4#32) := wordDefined_writeWord ..
    _ = true := h

/-- The word on top after PUSHSP is the old `sp` (R52, R120). -/
theorem readWord_sp_stateAfter_pushsp (h : s.mapped (s.sp - 4#32) = true) :
    (stateAfter .pushsp s).readWord (stateAfter .pushsp s).sp = s.sp :=
  readWord_writeWord_same s.sp h

end

/-- Settles O15: PUSHSP's byte, and its row of R32 with the report of its push. -/
theorem pushspPushesTheOldSp : Obligations.PushspPushesTheOldSp := by
  refine ⟨decodeByte_eq_iff rfl, fun s hpush => ?_⟩
  have hdef : accessesDefined .pushsp s := List.forall_mem_singleton.2 hpush
  have hexec := exec_and_execReport_of_accessesDefined hdef
  rwa [reportAfter_pushsp] at hexec

/-- Settles O16: POPSP's byte, and its row of R32 with the report of its pop. -/
theorem popspReplacesSpByTheTopWord : Obligations.PopspReplacesSpByTheTopWord := by
  refine ⟨decodeByte_eq_iff rfl, fun s htop => ?_⟩
  have hdef : accessesDefined .popsp s := List.forall_mem_singleton.2 htop
  have hexec := exec_and_execReport_of_accessesDefined hdef
  rwa [reportAfter_popsp] at hexec

/-- Settles O47: POPSP reads the word that PUSHSP stored, and PUSHSP's store is the only change of memory. -/
theorem pushspThenPopspRestoresSp : Obligations.PushspThenPopspRestoresSp := by
  intro s hmapped hdef
  have hpush : accessesDefined .pushsp s := List.forall_mem_singleton.2 hdef
  have hpop := accessesDefined_popsp_stateAfter_pushsp hdef
  have hrun : execRun [.pushsp, .popsp] s = .next (stateAfter .popsp (stateAfter .pushsp s)) := by
    rw [execRun_cons _ hpush, execRun_cons _ hpop, execRun]
  have hpc : s.pc + 1#32 + 1#32 = s.pc + 2#32 := BitVec.add_assoc ..
  have hpushFrame : sameOutsideWord (s.sp - 4#32) s (stateAfter .pushsp s) := sameOutsideWord_stateAfter rfl
  have hpopFrame : ∀ b, (stateAfter .popsp (stateAfter .pushsp s)).readByte b = (stateAfter .pushsp s).readByte b :=
    readByte_congr rfl
  exact ⟨_, hrun, readWord_sp_stateAfter_pushsp hmapped, hpc, rfl,
    fun b hb => (hpopFrame b).trans (hpushFrame.bytes b hb)⟩

end Sys2Proof.Machine
end

section
/-! PROOFS. Word accesses that meet other word accesses (20_memory.md R42 to R46): words that share no storage byte, a word
written twice, and a word written over itself. -/

namespace Sys2Proof.Machine

/-- A word reads the same where its lookup, its storage bytes and the byte order are the same (R45). -/
theorem readWord_congr {s t : State} {a : Word} (hcfg : t.cfg = s.cfg) (hlookup : t.translate a = s.translate a)
    (hbytes : ∀ j k, inStoredWord s a j k → storageByte t.regions j k = storageByte s.regions j k) :
    t.readWord a = s.readWord a := by
  cases ha : s.translate a with
  | none => rw [readWord_unmapped ha, readWord_unmapped (hlookup.trans ha)]
  | some x =>
    obtain ⟨i, off⟩ := x
    have hbyte : ∀ k < 4, storageByte t.regions i (off + k) = storageByte s.regions i (off + k) :=
      fun k hk => hbytes i (off + k) ⟨off, ha, by omega, by omega⟩
    have hfirst : storageByte t.regions i off = storageByte s.regions i off := hbyte 0 (by omega)
    rw [readWord_of_translate ha, readWord_of_translate (hlookup.trans ha), hcfg, hfirst, hbyte 1 (by omega),
      hbyte 2 (by omega), hbyte 3 (by omega)]

/-- A write leaves every word that shares no storage byte with the written one as it was. -/
theorem readWord_writeWord_of_disjoint {s : State} {a b : Word} (v : Word)
    (h : ∀ j k, inStoredWord s b j k → ¬ inStoredWord s a j k) : (s.writeWord a v).readWord b = s.readWord b :=
  readWord_congr rfl (translate_writeWord s a v b)
    fun j k hb => storageByte_writeWordRegions_of_not_inStoredWord s a v j k (h j k hb)

/-- The words at `a` and `a + 4` share no storage byte, whatever the regions: in one region their offsets are 4 apart, or
2^32 - 4 apart where `a + 4` wraps (R43). -/
theorem not_inStoredWord_add_four {s : State} {a : Word} {j k : Nat} (h : inStoredWord s a j k) :
    ¬ inStoredWord s (a + 4#32) j k := by
  rintro ⟨offB, hb, hleB, hltB⟩
  obtain ⟨offA, ha, hleA, hltA⟩ := h
  obtain ⟨r, hr, hra, hoffA⟩ := translateIn_some _ _ _ _ ha
  obtain ⟨q, hq, hqb, hoffB⟩ := translateIn_some _ _ _ _ hb
  obtain rfl : r = q := Option.some.inj (hr.symm.trans hq)
  have hbaseA := ((matchesAddress_iff r a).1 hra).1
  have hbaseB := ((matchesAddress_iff r (a + 4#32)).1 hqb).1
  have hnat : (a + 4#32).toNat = (a.toNat + 4) % 2 ^ 32 := BitVec.toNat_add a 4#32
  have hlt := a.isLt
  omega

/-- Of two writes of one word the second remains. -/
theorem storageByte_writeWord_writeWordRegions (s : State) (a v w : Word) (j k : Nat) :
    storageByte ((s.writeWord a v).writeWordRegions a w) j k = storageByte (s.writeWordRegions a w) j k := by
  cases ha : s.translate a with
  | none => rw [writeWord_unmapped v ha]
  | some x =>
    obtain ⟨i, off⟩ := x
    rw [storageByte_writeWordRegions _ a w i off j k ((translate_writeWord s a v a).trans ha),
      storageByte_writeWordRegions s a w i off j k ha, writeWord_regions, storageByte_writeWordRegions s a v i off j k ha,
      writeWord_cfg]
    split_ifs <;> rfl

/-- Byte `k` of a word just read is the storage byte that it was read from, in either byte order (R45, R47). -/
theorem toWire_readWord {s : State} {a : Word} {i off k : Nat} (h : s.translate a = some (i, off)) (hk : k < 4) :
    toWire s.cfg.byteOrder (s.readWord a) k = storageByte s.regions i (off + k) := by
  rw [readWord_of_translate h]
  obtain ⟨h0, h1, h2, h3⟩ := toWire_fromWire s.cfg.byteOrder (storageByte s.regions i off)
    (storageByte s.regions i (off + 1)) (storageByte s.regions i (off + 2)) (storageByte s.regions i (off + 3))
  match k with
  | 0 => exact h0
  | 1 => exact h1
  | 2 => exact h2
  | 3 => exact h3

/-- Writing a word back where it was read changes no storage byte. -/
theorem storageByte_writeWordRegions_readWord (s : State) (a : Word) (j k : Nat) :
    storageByte (s.writeWordRegions a (s.readWord a)) j k = storageByte s.regions j k := by
  by_cases hin : inStoredWord s a j k
  · obtain ⟨off, ha, hle, hlt⟩ := hin
    obtain ⟨m, rfl⟩ := Nat.exists_eq_add_of_le hle
    have hm : m < 4 := by omega
    rw [storageByte_writeWordRegions_of_lt _ ha hm, toWire_readWord ha hm]
  · exact storageByte_writeWordRegions_of_not_inStoredWord s a _ j k hin

/-- Replacing a word twice by its image under an involution changes no storage byte: the second write puts the word back, or
both writes are dropped (R54). -/
theorem storageByte_replace_twice {f : Word → Word} (hf : Function.Involutive f) (s : State) (a : Word) (j k : Nat) :
    storageByte ((s.writeWord a (f (s.readWord a))).writeWordRegions a
      (f ((s.writeWord a (f (s.readWord a))).readWord a))) j k = storageByte s.regions j k := by
  rw [storageByte_writeWord_writeWordRegions]
  cases hmapped : s.mapped a with
  | true => rw [readWord_writeWord_same _ hmapped, hf, storageByte_writeWordRegions_readWord]
  | false => rw [writeWordRegions_unmapped s a _ (mapped_eq_false_iff.1 hmapped)]

end Sys2Proof.Machine
end

section
/-! PROOFS. ADD, AND, OR, NOT and FLIP (44_alu.md R130 to R135): the first three read two words and write the second, the
other two read and write the word on top of the stack. -/

namespace Sys2Proof.Machine

/-! ### The two shapes: what is accessed, and what is reported -/

section
variable {i : Instr} {s : State}

theorem mem_binary_iff : i ∈ [Instr.add, .and, .or] ↔ i = .add ∨ i = .and ∨ i = .or := by
  simp

theorem mem_unary_iff : i ∈ [Instr.not, .flip] ↔ i = .not ∨ i = .flip := by
  simp

theorem wordAccesses_binary (hi : i ∈ [Instr.add, .and, .or]) : wordAccesses i s = [s.sp, s.sp + 4#32, s.sp + 4#32] := by
  obtain rfl | rfl | rfl := mem_binary_iff.1 hi <;> rfl

theorem wordAccesses_unary (hi : i ∈ [Instr.not, .flip]) : wordAccesses i s = [s.sp, s.sp] := by
  obtain rfl | rfl := mem_unary_iff.1 hi <;> rfl

theorem accessesDefined_binary (hi : i ∈ [Instr.add, .and, .or]) (htop : s.wordDefined s.sp = true)
    (hsecond : s.wordDefined (s.sp + 4#32) = true) : accessesDefined i s := by
  rw [accessesDefined, wordAccesses_binary hi]
  exact List.forall_mem_cons.2 ⟨htop, List.forall_mem_cons.2 ⟨hsecond, List.forall_mem_singleton.2 hsecond⟩⟩

theorem accessesDefined_unary (hi : i ∈ [Instr.not, .flip]) (htop : s.wordDefined s.sp = true) : accessesDefined i s := by
  rw [accessesDefined, wordAccesses_unary hi]
  exact List.forall_mem_cons.2 ⟨htop, List.forall_mem_singleton.2 htop⟩

/-- The two operands are aligned alike, and the second is read and written, and reported for once. -/
theorem reportAfter_binary (hi : i ∈ [Instr.add, .and, .or]) :
    reportAfter i s =
      { unmappedAddress := !s.mapped s.sp || !s.mapped (s.sp + 4#32),
        misalignedAccess := s.cfg.alignCheck && !wordAligned s.sp } := by
  have hreport : reportAfter i s = accessesReport s (wordAccesses i s) := by
    obtain rfl | rfl | rfl := mem_binary_iff.1 hi <;> rfl
  rw [hreport, wordAccesses_binary hi]
  simp [accessesReport]

/-- The word on top is read and written, and reported for once. -/
theorem reportAfter_unary (hi : i ∈ [Instr.not, .flip]) :
    reportAfter i s =
      { unmappedAddress := !s.mapped s.sp,
        misalignedAccess := s.cfg.alignCheck && !wordAligned s.sp } := by
  have hreport : reportAfter i s = accessesReport s (wordAccesses i s) := by
    obtain rfl | rfl := mem_unary_iff.1 hi <;> rfl
  rw [hreport, wordAccesses_unary hi]
  simp [accessesReport]

/-- A binary instruction with both operands unmapped or contained leaves its row's state and reports for them. -/
theorem exec_and_execReport_binary (hi : i ∈ [Instr.add, .and, .or]) (htop : s.wordDefined s.sp = true)
    (hsecond : s.wordDefined (s.sp + 4#32) = true) :
    exec i s = .next (stateAfter i s) ∧
      execReport i s = .ok { unmappedAddress := !s.mapped s.sp || !s.mapped (s.sp + 4#32),
                             misalignedAccess := s.cfg.alignCheck && !wordAligned s.sp } := by
  rw [← reportAfter_binary hi]
  exact exec_and_execReport_of_accessesDefined (accessesDefined_binary hi htop hsecond)

/-- A unary instruction with its operand unmapped or contained leaves its row's state and reports for it. -/
theorem exec_and_execReport_unary (hi : i ∈ [Instr.not, .flip]) (htop : s.wordDefined s.sp = true) :
    exec i s = .next (stateAfter i s) ∧
      execReport i s = .ok { unmappedAddress := !s.mapped s.sp,
                             misalignedAccess := s.cfg.alignCheck && !wordAligned s.sp } := by
  rw [← reportAfter_unary hi]
  exact exec_and_execReport_of_accessesDefined (accessesDefined_unary hi htop)

end

/-- Settles O17: ADD's byte, and its row of R32. -/
theorem addReplacesTheTopTwoWordsByTheirSum : Obligations.AddReplacesTheTopTwoWordsByTheirSum :=
  ⟨decodeByte_eq_iff rfl, fun _ => exec_and_execReport_binary (i := .add) (by decide)⟩

/-- Settles O18: AND's byte, and its row of R32. -/
theorem andReplacesTheTopTwoWordsByTheirConjunction : Obligations.AndReplacesTheTopTwoWordsByTheirConjunction :=
  ⟨decodeByte_eq_iff rfl, fun _ => exec_and_execReport_binary (i := .and) (by decide)⟩

/-- Settles O19: OR's byte, and its row of R32. -/
theorem orReplacesTheTopTwoWordsByTheirDisjunction : Obligations.OrReplacesTheTopTwoWordsByTheirDisjunction :=
  ⟨decodeByte_eq_iff rfl, fun _ => exec_and_execReport_binary (i := .or) (by decide)⟩

/-- Settles O20: NOT's byte, and its row of R32. -/
theorem notInvertsTheTopWord : Obligations.NotInvertsTheTopWord :=
  ⟨decodeByte_eq_iff rfl, fun _ => exec_and_execReport_unary (i := .not) (by decide)⟩

/-- R134's loop: bit `31 - k` of the flipped word is bit `k` of the word. -/
theorem getLsbD_flipBits (v : Word) {k : Nat} (hk : k < 32) : (flipBits v).getLsbD (31 - k) = v.getLsbD k := by
  have hback : 32 - 1 - (31 - k) = k := by omega
  rw [flipBits, BitVec.getLsbD_reverse, BitVec.getMsbD_eq_getLsbD, hback, decide_eq_true (by omega), Bool.true_and]

theorem flipBits_involutive : Function.Involutive flipBits := fun _ => BitVec.reverse_reverse_eq

/-- Settles O21: FLIP's byte, its row of R32 with the bits of the word that it writes, and the involution. -/
theorem flipReversesTheTopWord : Obligations.FlipReversesTheTopWord := by
  refine ⟨decodeByte_eq_iff rfl, fun s htop => ?_, flipBits_involutive⟩
  obtain ⟨hexec, hreport⟩ := exec_and_execReport_unary (i := .flip) (by decide) htop
  exact ⟨flipBits (s.readWord s.sp), fun _ hk => getLsbD_flipBits _ hk, hexec, hreport⟩

end Sys2Proof.Machine
end

section
/-! PROOFS. The algebra of the ALU instructions (44_alu.md R133 to R135): NOT and FLIP undo themselves, and ADD, AND and OR
do not depend on the order of their operands. -/

namespace Sys2Proof.Machine

section
variable {i : Instr}

/-- NOT and FLIP replace the word on top by its image under an involution, and otherwise change `pc` and `idim` alone. -/
theorem exists_involution_stateAfter_unary (hi : i ∈ [Instr.not, .flip]) :
    ∃ f : Word → Word, Function.Involutive f ∧
      ∀ s, stateAfter i s = ((s.writeWord s.sp (f (s.readWord s.sp))).withPc (s.pc + 1#32)).withIdim false := by
  obtain rfl | rfl := mem_unary_iff.1 hi
  · exact ⟨(~~~ ·), fun _ => BitVec.not_not, fun _ => rfl⟩
  · exact ⟨flipBits, flipBits_involutive, fun _ => rfl⟩

/-- ADD, AND and OR write at `sp + 4` the value of a commutative operation on the top two words, and pop one (R135). -/
theorem exists_commutative_stateAfter_binary (hi : i ∈ [Instr.add, .and, .or]) :
    ∃ op : Word → Word → Word, (∀ x y, op x y = op y x) ∧
      ∀ s, stateAfter i s =
        (((s.writeWord (s.sp + 4#32) (op (s.readWord s.sp) (s.readWord (s.sp + 4#32)))).withSp (s.sp + 4#32)).withPc
          (s.pc + 1#32)).withIdim false := by
  obtain rfl | rfl | rfl := mem_binary_iff.1 hi
  · exact ⟨(· + ·), BitVec.add_comm, fun _ => rfl⟩
  · exact ⟨(· &&& ·), BitVec.and_comm, fun _ => rfl⟩
  · exact ⟨(· ||| ·), BitVec.or_comm, fun _ => rfl⟩

end

/-- The state with the words at `a` and `b` exchanged, the one at `a` written first. -/
def exchanged (s : State) (a b : Word) : State := (s.writeWord a (s.readWord b)).writeWord b (s.readWord a)

/-- After the exchange of two neighbouring mapped words each address holds the other's word. -/
theorem readWord_exchanged {s : State} {a : Word} (ha : s.mapped a = true) (hb : s.mapped (a + 4#32) = true) :
    (exchanged s a (a + 4#32)).readWord a = s.readWord (a + 4#32) ∧
      (exchanged s a (a + 4#32)).readWord (a + 4#32) = s.readWord a := by
  have hb' : (s.writeWord a (s.readWord (a + 4#32))).mapped (a + 4#32) = true := by rwa [mapped_writeWord]
  refine ⟨?_, readWord_writeWord_same _ hb'⟩
  rw [exchanged, readWord_writeWord_of_disjoint _ fun _ _ => not_inStoredWord_add_four, readWord_writeWord_same _ ha]

/-- Settles O49: the second execution replaces the word on top by the involution's image of the first one's image. -/
theorem notAndFlipAreInvolutions : Obligations.NotAndFlipAreInvolutions := by
  intro s i hi htop
  obtain ⟨f, hf, hstate⟩ := exists_involution_stateAfter_unary hi
  have hfirst : accessesDefined i s := accessesDefined_unary hi htop
  have hsecond : accessesDefined i (stateAfter i s) := accessesDefined_unary hi (by simp [hstate, htop])
  have hrun : execRun [i, i] s = .next (stateAfter i (stateAfter i s)) := by
    rw [execRun_cons _ hfirst, execRun_cons _ hsecond, execRun]
  have hsp : (stateAfter i (stateAfter i s)).sp = s.sp := by simp [hstate]
  have hstorage : ∀ j k, storageByte (stateAfter i (stateAfter i s)).regions j k = storageByte s.regions j k := by
    simpa [hstate] using storageByte_replace_twice hf s s.sp
  have hword : (stateAfter i (stateAfter i s)).readWord s.sp = s.readWord s.sp :=
    readWord_congr rfl (by simp [hstate]) fun j k _ => hstorage j k
  exact ⟨_, hrun, hsp, by rw [hsp, hword], hstorage⟩

/-- Settles O50: the word on top afterwards is the operation's value, whose two arguments the exchange swaps. -/
theorem addAndOrAreCommutative : Obligations.AddAndOrAreCommutative := by
  intro s t u i hi htop hsecond ht hu
  change exec i (exchanged s s.sp (s.sp + 4#32)) = .next u at hu
  obtain ⟨op, hcomm, hstate⟩ := exists_commutative_stateAfter_binary hi
  have hresult : ∀ v : State, v.mapped (v.sp + 4#32) = true → (stateAfter i v).sp = v.sp + 4#32 ∧
      (stateAfter i v).readWord (v.sp + 4#32) = op (v.readWord v.sp) (v.readWord (v.sp + 4#32)) := fun v hv => by
    simp [hstate, readWord_writeWord_same _ hv]
  obtain ⟨hfirst, hother⟩ := readWord_exchanged htop hsecond
  obtain ⟨htsp, htword⟩ := hresult s hsecond
  obtain ⟨husp, huword⟩ := hresult (exchanged s s.sp (s.sp + 4#32)) (by simpa [exchanged] using hsecond)
  have hsp : (exchanged s s.sp (s.sp + 4#32)).sp = s.sp := rfl
  rw [hsp] at husp huword
  rw [eq_stateAfter_of_exec_next ht, eq_stateAfter_of_exec_next hu, htsp, husp, htword, huword, hfirst, hother]
  exact ⟨rfl, hcomm _ _⟩

end Sys2Proof.Machine
end

section
/-! PROOFS. NOP and BREAKPOINT (45_nop_breakpoint.md R140, R141): neither accesses a word, so every state has a next one and a
step reports what its fetch does; and BREAKPOINT as the step through unmapped addresses (R44, R205). -/

namespace Sys2Proof.Machine

section
variable {s : State}

/-! ### What a step without conditions of its own reports -/

theorem reportAfter_nop : reportAfter .nop s = Report.empty := accessesReport_nil s

theorem reportAfter_breakpoint : reportAfter .breakpoint s = Report.empty := accessesReport_nil s

/-- A step whose instruction reports nothing reports what its fetch does (R164). -/
theorem stepReport_of_execReport_empty (h : execReport s.fetchInstr s = .ok Report.empty) :
    stepReport s = .ok (s.byteReport s.pc) := by
  rw [stepReport_eq, h]
  exact congrArg Except.ok (union_empty_right _)

theorem byteReport_mapped {a : Word} (h : s.mapped a = true) : s.byteReport a = Report.empty := by
  simp [State.byteReport, Report.empty, h]

/-- Any other instruction than BREAKPOINT was fetched from a mapped address. -/
theorem mapped_of_fetchInstr_ne_breakpoint (h : s.fetchInstr ≠ .breakpoint) : s.mapped s.pc = true :=
  Bool.eq_true_of_not_eq_false fun hunmapped => h (fetchInstr_unmapped hunmapped)

/-! ### Steps through unmapped addresses -/

theorem fetchByte_unmapped (h : s.mapped s.pc = false) : s.fetchByte = 0x00#8 :=
  readByte_unmapped (mapped_eq_false_iff.1 h)

/-- A step from an unmapped `pc` is a BREAKPOINT, whose row of R32 changes `pc` alone. -/
theorem step_unmapped (h : s.mapped s.pc = false) : step s = .next (s.withPc (s.pc + 1#32)) := by
  rw [step, fetchInstr_unmapped h]
  exact (exec_next_iff .breakpoint s _).2 ⟨List.forall_mem_nil _, rfl⟩

theorem stepRun_succ_of_step {t : State} (n : Nat) (h : step s = .next t) : stepRun (n + 1) s = stepRun n t := by
  rw [stepRun, h]

end

/-- The addresses from `pc + 1` on are those from `pc` on, one later, wrapping alike (R21). -/
theorem add_one_add_ofNat (pc : Word) (k : Nat) : pc + 1#32 + BitVec.ofNat 32 k = pc + BitVec.ofNat 32 (k + 1) := by
  rw [BitVec.add_assoc, ← BitVec.ofNat_add, Nat.add_comm]

/-- Settles O22: NOP's byte, its row of R32, and a fetched NOP's fetch was mapped. -/
theorem nopClearsIdim : Obligations.NopClearsIdim := by
  refine ⟨decodeByte_eq_iff rfl, fun s => ?_⟩
  obtain ⟨hexec, hreport⟩ := exec_and_execReport_of_accessesDefined (i := .nop) (s := s) (List.forall_mem_nil _)
  refine ⟨hexec, fun hbyte => ?_⟩
  have hfetch : s.fetchInstr = .nop := (decodeByte_eq_iff rfl _).2 hbyte
  have hmapped : s.mapped s.pc = true := mapped_of_fetchInstr_ne_breakpoint (by simp [hfetch])
  calc stepReport s = .ok (s.byteReport s.pc) := stepReport_of_execReport_empty (by rw [hfetch, hreport, reportAfter_nop])
    _ = .ok {} := congrArg Except.ok (byteReport_mapped hmapped)

/-- Settles O23: BREAKPOINT's byte, its row of R32, and what its fetch reports. -/
theorem breakpointOnlyAdvancesPc : Obligations.BreakpointOnlyAdvancesPc := by
  refine ⟨decodeByte_eq_iff rfl, fun s => ?_⟩
  obtain ⟨hexec, hreport⟩ := exec_and_execReport_of_accessesDefined (i := .breakpoint) (s := s) (List.forall_mem_nil _)
  refine ⟨hexec, fetchByte_unmapped, fun hbyte => ?_⟩
  have hfetch : s.fetchInstr = .breakpoint := (decodeByte_eq_iff rfl _).2 hbyte
  exact stepReport_of_execReport_empty (by rw [hfetch, hreport, reportAfter_breakpoint])

/-- Settles O56, by induction on the number of steps: the first changes `pc` alone, so the same addresses stay unmapped. -/
theorem unmappedRunOnlyAdvancesPc : Obligations.UnmappedRunOnlyAdvancesPc := by
  intro n s h
  induction n generalizing s with
  | zero => simp [stepRun]
  | succ n ih =>
    have hfirst : s.mapped s.pc = false := by simpa using h 0 n.succ_pos
    have hrest : ∀ k < n, (s.withPc (s.pc + 1#32)).mapped (s.pc + 1#32 + BitVec.ofNat 32 k) = false := fun k hk => by
      rw [mapped_withPc, add_one_add_ofNat]
      exact h (k + 1) (Nat.succ_lt_succ hk)
    calc stepRun (n + 1) s = stepRun n (s.withPc (s.pc + 1#32)) := stepRun_succ_of_step n (step_unmapped hfirst)
      _ = .next (s.withPc (s.pc + 1#32 + BitVec.ofNat 32 n)) := ih _ hrest
      _ = .next (s.withPc (s.pc + BitVec.ofNat 32 (n + 1))) := by rw [add_one_add_ofNat]

end Sys2Proof.Machine
end

section
/-! PROOFS. What a report says of its step (60_exceptions.md R164): an instruction, and so a step, reports a set exactly where
none of its accesses is refused, and `reportAfter` is the instruction's part of that set. -/

namespace Sys2Proof.Machine

section
variable {i : Instr} {s : State} {r : Report}

/-- The state and the report come from one run of the block, so where there is a report there is a next state. -/
theorem exists_exec_next_of_execReport_ok (h : execReport i s = .ok r) : ∃ t, exec i s = .next t := by
  rw [execReport, reportOf] at h
  rw [exec_eq_commit, commit]
  cases hrun : blockOf i ⟨s, Report.empty⟩ with
  | ok x => exact ⟨x.2.state, rfl⟩
  | error e => rw [hrun] at h; cases h

/-- What a report says: no access of the instruction was refused, and the set is `reportAfter`'s. -/
theorem execReport_ok_iff : execReport i s = .ok r ↔ accessesDefined i s ∧ r = reportAfter i s := by
  constructor
  · intro h
    obtain ⟨t, ht⟩ := exists_exec_next_of_execReport_ok h
    obtain ⟨hdef, -⟩ := (exec_next_iff i s t).1 ht
    exact ⟨hdef, Except.ok.inj (h.symm.trans (execReport_of_accessesDefined hdef))⟩
  · rintro ⟨hdef, rfl⟩
    exact execReport_of_accessesDefined hdef

/-- What a step's report says: the step is safe, and the set is the fetch's and the instruction's. -/
theorem stepReport_ok_iff :
    stepReport s = .ok r ↔ safeStep s ∧ r = (s.byteReport s.pc).union (reportAfter s.fetchInstr s) := by
  rw [stepReport_eq]
  constructor
  · intro h
    cases hexec : execReport s.fetchInstr s with
    | error e => rw [hexec] at h; cases h
    | ok q =>
      obtain ⟨hsafe, rfl⟩ := execReport_ok_iff.1 hexec
      rw [hexec] at h
      exact ⟨hsafe, (Except.ok.inj h).symm⟩
  · rintro ⟨hsafe, rfl⟩
    rw [execReport_of_accessesDefined hsafe]
    rfl

end

end Sys2Proof.Machine
end

section
/-! PROOFS. EMULATE (46_emulate_unsupported.md R150, R151): one push, of the return address, and a jump; the word that was on
top lies next to the pushed one and is kept. -/

namespace Sys2Proof.Machine

section
variable {s : State} {n : Nat}

theorem reportAfter_emulate :
    reportAfter (.emulate n) s =
      { unmappedAddress := !s.mapped (s.sp - 4#32),
        misalignedAccess := s.cfg.alignCheck && !wordAligned s.sp } := by
  simp [reportAfter, wordAccesses, accessesReport]

theorem slotAddress_eq : slotAddress n = BitVec.ofNat 32 (n * 32) :=
  congrArg (BitVec.ofNat 32) (Nat.mul_comm emulateStride n)

theorem stateAfter_emulate :
    stateAfter (.emulate n) s =
      { s.writeWord (s.sp - 4#32) (s.pc + 1#32) with
        pc := BitVec.ofNat 32 (n * 32), sp := s.sp - 4#32, idim := false } := by
  rw [← slotAddress_eq]
  rfl

/-- The word on top after EMULATE is the return address (R52, R150). -/
theorem readWord_sp_stateAfter_emulate (h : s.mapped (s.sp - 4#32) = true) :
    (stateAfter (.emulate n) s).readWord (stateAfter (.emulate n) s).sp = s.pc + 1#32 :=
  readWord_writeWord_same (s.pc + 1#32) h

/-- The word below it is the one that was on top: the push writes no byte of it, even where `sp - 4` wraps. -/
theorem readWord_sp_add_four_stateAfter_emulate :
    (stateAfter (.emulate n) s).readWord ((stateAfter (.emulate n) s).sp + 4#32) = s.readWord s.sp := by
  have hsecond : s.sp - 4#32 + 4#32 = s.sp := BitVec.sub_add_cancel ..
  calc (stateAfter (.emulate n) s).readWord (s.sp - 4#32 + 4#32)
      = (s.writeWord (s.sp - 4#32) (s.pc + 1#32)).readWord (s.sp - 4#32 + 4#32) := rfl
    _ = s.readWord (s.sp - 4#32 + 4#32) :=
      readWord_writeWord_of_disjoint _ fun _ _ hold hpushed => not_inStoredWord_add_four hpushed hold
    _ = s.readWord s.sp := by rw [hsecond]

end

/-- Settles O11: EMULATE's format, and its row of R32 with the report of its push. -/
theorem emulateCallsItsSlot : Obligations.EmulateCallsItsSlot := by
  refine ⟨fun op h => ?_, by decide, fun s n hpush => ?_⟩
  · have hbyte : op = 0b001#3 ++ op.extractLsb' 0 5 := eq_append_of_and_mask 3 5 h
    exact (congrArg decodeByte hbyte).trans (decodeByte_emulate _)
  · have hdef : accessesDefined (.emulate n) s := List.forall_mem_singleton.2 hpush
    have hexec := exec_and_execReport_of_accessesDefined hdef
    rwa [stateAfter_emulate, reportAfter_emulate] at hexec

/-- Settles O48: the push leaves the return address above the caller's top word, and POPPC (O12) jumps to whatever word is on
top. -/
theorem emulateEntryAndReturn : Obligations.EmulateEntryAndReturn := by
  intro s n hmapped hdef
  have hpush : accessesDefined (.emulate n) s := List.forall_mem_singleton.2 hdef
  have hreturn := readWord_sp_stateAfter_emulate (n := n) hmapped
  refine ⟨stateAfter (.emulate n) s, (exec_next_iff _ s _).2 ⟨hpush, rfl⟩, hreturn,
    readWord_sp_add_four_stateAfter_emulate, rfl, fun u htop hsame => ?_⟩
  obtain ⟨hpoppc, -⟩ := poppcJumpsToThePoppedWord.2 u htop
  exact ⟨_, hpoppc, hsame.trans hreturn, rfl, rfl⟩

end Sys2Proof.Machine
end

section
/-! PROOFS. The four unsupported bytes (46_emulate_unsupported.md R152): they access no word and alone report UnknownOpcode;
and none of them is what an unmapped fetch reads, so UnknownOpcode is reported alone (60_exceptions.md R164). -/

namespace Sys2Proof.Machine

/-- The four instructions of R152. -/
abbrev unsupportedInstrs : List Instr := [.unsupported01, .unsupported03, .unsupported0E, .unsupported0F]

section
variable {i : Instr} {s : State}

theorem mem_unsupportedInstrs_iff :
    i ∈ unsupportedInstrs ↔ i = .unsupported01 ∨ i = .unsupported03 ∨ i = .unsupported0E ∨ i = .unsupported0F := by
  simp

theorem wordAccesses_unsupported (hi : i ∈ unsupportedInstrs) : wordAccesses i s = [] := by
  obtain rfl | rfl | rfl | rfl := mem_unsupportedInstrs_iff.1 hi <;> rfl

theorem accessesDefined_unsupported (hi : i ∈ unsupportedInstrs) : accessesDefined i s := by
  rw [accessesDefined, wordAccesses_unsupported hi]
  exact List.forall_mem_nil _

theorem stateAfter_unsupported (hi : i ∈ unsupportedInstrs) : stateAfter i s = { s with pc := s.pc + 1#32 } := by
  obtain rfl | rfl | rfl | rfl := mem_unsupportedInstrs_iff.1 hi <;> rfl

theorem reportAfter_unsupported (hi : i ∈ unsupportedInstrs) : reportAfter i s = { unknownOpcode := true } := by
  obtain rfl | rfl | rfl | rfl := mem_unsupportedInstrs_iff.1 hi <;> rfl

/-- No other instruction reports UnknownOpcode: a word access cannot. -/
theorem mem_unsupportedInstrs_of_unknownOpcode (h : (reportAfter i s).unknownOpcode = true) : i ∈ unsupportedInstrs := by
  cases i with
  | unsupported01 | unsupported03 | unsupported0E | unsupported0F => simp
  | _ => cases h

/-- The fetch adds nothing to the report of an unsupported byte, for an unmapped address reads as BREAKPOINT (R44). -/
theorem stepReport_unsupported (hi : s.fetchInstr ∈ unsupportedInstrs) : stepReport s = .ok { unknownOpcode := true } := by
  have hmapped : s.mapped s.pc = true := mapped_of_fetchInstr_ne_breakpoint (ne_of_mem_of_not_mem hi (by decide))
  refine stepReport_ok_iff.2 ⟨accessesDefined_unsupported hi, ?_⟩
  rw [byteReport_mapped hmapped, union_empty, reportAfter_unsupported hi]

/-- A step that reports UnknownOpcode runs an unsupported byte, since its fetch cannot report it. -/
theorem fetchInstr_mem_unsupportedInstrs {r : Report} (h : stepReport s = .ok r) (hr : r.unknownOpcode = true) :
    s.fetchInstr ∈ unsupportedInstrs := by
  obtain ⟨-, rfl⟩ := stepReport_ok_iff.1 h
  exact mem_unsupportedInstrs_of_unknownOpcode hr

end

/-- Settles O24: the four bytes, their rows of R32, and what they report, their own and with the fetch. -/
theorem unsupportedBytesOnlyAdvancePc : Obligations.UnsupportedBytesOnlyAdvancePc := by
  refine ⟨decodeByte_eq_iff rfl, decodeByte_eq_iff rfl, decodeByte_eq_iff rfl, decodeByte_eq_iff rfl, fun s i hi => ?_⟩
  obtain ⟨hexec, hreport⟩ := exec_and_execReport_of_accessesDefined (accessesDefined_unsupported (s := s) hi)
  rw [stateAfter_unsupported hi] at hexec
  rw [reportAfter_unsupported hi] at hreport
  refine ⟨hexec, hreport, ?_⟩
  rintro rfl
  exact stepReport_unsupported hi

/-- Settles O53: only an unsupported byte's step reports UnknownOpcode, and it reports nothing else. -/
theorem unknownOpcodeIsReportedAlone : Obligations.UnknownOpcodeIsReportedAlone := by
  intro s r h hr
  have halone : stepReport s = .ok { unknownOpcode := true } :=
    stepReport_unsupported (fetchInstr_mem_unsupportedInstrs h hr)
  exact Except.ok.inj (h.symm.trans halone)

end Sys2Proof.Machine
end

section
/-! PROOFS. The parameters that no transition reads (60_exceptions.md R164, 00_scope.md R6): of the configuration an
instruction sees BYTE_ORDER alone, through the words it reads and writes. -/

namespace Sys2Proof.Machine

/-- `s` with another configuration. -/
def State.withCfg (s : State) (c : Config) : State := { s with cfg := c }

@[simp] theorem wordDefined_withCfg (s : State) (c : Config) (a : Word) :
    (s.withCfg c).wordDefined a = s.wordDefined a := rfl

/-- The fetch reads one byte, so no byte order enters it (R44). -/
theorem step_withCfg (s : State) (c : Config) : step (s.withCfg c) = exec s.fetchInstr (s.withCfg c) := rfl

/-- Where the same accesses are defined, the same one is refused first, whatever state the instruction would leave. -/
theorem nextIfDefined_refused_congr {s t u v : State} {as : List Word} {r : Refusal}
    (hdef : ∀ a, t.wordDefined a = s.wordDefined a) (h : nextIfDefined s u as = .refused r) :
    nextIfDefined t v as = .refused r := by
  induction as with
  | nil => cases h
  | cons a rest ih =>
    cases ha : s.wordDefined a with
    | true =>
      rw [nextIfDefined, if_pos ha] at h
      rw [nextIfDefined, if_pos ((hdef a).trans ha)]
      exact ih h
    | false => simpa [nextIfDefined, hdef a, ha] using h

section
variable {i : Instr} {s : State} {c : Config} (hc : c.byteOrder = s.cfg.byteOrder)
include hc

theorem readWord_withCfg (a : Word) : (s.withCfg c).readWord a = s.readWord a := by
  rw [State.readWord, State.readWord, State.withCfg, hc]
  rfl

theorem writeWordRegions_withCfg (a v : Word) : (s.withCfg c).writeWordRegions a v = s.writeWordRegions a v := by
  rw [State.writeWordRegions, State.writeWordRegions, State.withCfg, hc]
  rfl

theorem sameInputs_withCfg : sameInputs i s (s.withCfg c) :=
  ⟨rfl, rfl, rfl, fun a _ => readWord_withCfg hc a⟩

/-- The same word is stored at the same address, in the same byte order. -/
theorem regionsAfter_withCfg : regionsAfter i (s.withCfg c) = regionsAfter i s := by
  have hsame : sameInputs i s (s.withCfg c) := sameInputs_withCfg hc
  cases hs : storedAddress i s with
  | none =>
    rw [regionsAfter_of_storedAddress_none hs, regionsAfter_of_storedAddress_none (hsame.storedAddress_eq.trans hs)]
    rfl
  | some a =>
    rw [regionsAfter_of_storedAddress hs, regionsAfter_of_storedAddress (hsame.storedAddress_eq.trans hs),
      hsame.storedWord_eq, writeWordRegions_withCfg hc]

theorem stateAfter_withCfg : stateAfter i (s.withCfg c) = (stateAfter i s).withCfg c :=
  have hsame : sameInputs i s (s.withCfg c) := sameInputs_withCfg hc
  State.ext rfl (regionsAfter_withCfg hc) hsame.pcAfter_eq hsame.spAfter_eq hsame.idimAfter_eq

theorem exec_withCfg_of_next {t : State} (h : exec i s = .next t) : exec i (s.withCfg c) = .next (t.withCfg c) := by
  obtain ⟨hdef, rfl⟩ := (exec_next_iff i s t).1 h
  refine (exec_next_iff i _ _).2 ⟨fun a ha => ?_, (stateAfter_withCfg hc).symm⟩
  rw [(sameInputs_withCfg hc).wordAccesses_eq] at ha
  exact hdef a ha

theorem exec_withCfg_of_refused {r : Refusal} (h : exec i s = .refused r) : exec i (s.withCfg c) = .refused r := by
  rw [exec_eq_nextIfDefined] at h
  rw [exec_eq_nextIfDefined, (sameInputs_withCfg hc).wordAccesses_eq]
  exact nextIfDefined_refused_congr (wordDefined_withCfg s c) h

end

/-- Settles O51: the fetched byte is the same, and so is what its instruction does (`stateAfter_withCfg`) or is refused. -/
theorem strictModeChangesNoTransition : Obligations.StrictModeChangesNoTransition :=
  fun s c hc => ⟨fun _ h => (step_withCfg s c).trans (exec_withCfg_of_next hc h),
    fun _ h => (step_withCfg s c).trans (exec_withCfg_of_refused hc h)⟩

end Sys2Proof.Machine
end

section
/-! PROOFS. The status output (60_exceptions.md R162, R164): the code of a set, and the status of a step from its set. -/

namespace Sys2Proof.Machine

/-- Each bit of a set's code is one condition (R164). -/
theorem getLsbD_encode (r : Report) :
    r.encode.getLsbD 0 = r.unmappedAddress ∧ r.encode.getLsbD 1 = r.misalignedAccess ∧
      r.encode.getLsbD 2 = r.unknownOpcode := by
  simp only [Report.encode, BitVec.getLsbD_append]
  simp

section
variable {s t : State} {r : Report}

/-- A step that has a next state has a report: both say that none of its accesses is refused. -/
theorem exists_stepReport_of_step_next (h : step s = .next t) : ∃ r, stepReport s = .ok r :=
  ⟨_, stepReport_ok_iff.2 ⟨((exec_next_iff s.fetchInstr s t).1 h).1, rfl⟩⟩

theorem stepStatus_of_stepReport (h : stepReport s = .ok r) : stepStatus s = .ok (statusOutput s.cfg.strict r) := by
  rw [stepStatus, h]

theorem stepStatus_of_not_strict (h : stepReport s = .ok r) (hs : s.cfg.strict = false) : stepStatus s = .ok 0b000#3 := by
  rw [stepStatus_of_stepReport h, hs]
  rfl

theorem stepStatus_of_strict (h : stepReport s = .ok r) (hs : s.cfg.strict = true) : stepStatus s = .ok r.encode := by
  rw [stepStatus_of_stepReport h, hs]
  rfl

end

/-- Settles O52: the status of the step's report, for each value of STRICT. -/
theorem statusIsOkUnlessStrictReportsIt : Obligations.StatusIsOkUnlessStrictReportsIt := by
  intro s t h
  obtain ⟨r, hr⟩ := exists_stepReport_of_step_next h
  exact ⟨r, hr, stepStatus_of_not_strict hr, fun hs => ⟨r.encode, stepStatus_of_strict hr hs, getLsbD_encode r⟩⟩

end Sys2Proof.Machine
end

section
/-! PROOFS. The alignment discipline (70_reset_and_hazards.md R194): offset and size are both multiples of 4, so an aligned
word that begins in a region ends in it. -/

namespace Sys2Proof.Machine

theorem regionSize_aligned {s : State} {i : Nat} (hp : s.alignedPlatform) : regionSize s.regions i % 4 = 0 := by
  cases hr : s.regions[i]? with
  | none => simp [regionSize, hr]
  | some r =>
    obtain ⟨-, hsize⟩ := hp r (List.mem_of_getElem? hr)
    rw [regionSize_of_getElem? s.regions i r hr]
    exact (wordAligned_iff r.size).1 hsize

theorem wordDefined_of_aligned {s : State} {a : Word} (hp : s.alignedPlatform) (ha : wordAligned a = true) :
    s.wordDefined a = true := by
  cases h : s.translate a with
  | none => exact wordDefined_unmapped h
  | some x =>
    obtain ⟨i, off⟩ := x
    have hoff : off % 4 = 0 := offset_aligned hp ha h
    have hsize : regionSize s.regions i % 4 = 0 := regionSize_aligned hp
    obtain ⟨-, hlt⟩ := translateIn_offset_lt s.regions a i off h
    rw [wordDefined_iff h]
    omega

/-- Settles O55: every access is defined, and an instruction whose accesses are all defined has a next state. -/
theorem alignedPlatformNeverRefusesAlignedAccesses : Obligations.AlignedPlatformNeverRefusesAlignedAccesses :=
  ⟨fun _ _ hp ha => wordDefined_of_aligned hp ha, fun i s hp haligned =>
    ⟨stateAfter i s, (exec_next_iff i s _).2 ⟨fun a ha => wordDefined_of_aligned hp (haligned a ha), rfl⟩⟩⟩

end Sys2Proof.Machine
end

section
/-! PROOFS. `idim` at a jump target (70_reset_and_hazards.md R202): what R32's `pc` and `idim` columns say together. -/

namespace Sys2Proof.Machine

/-- The instructions that take control elsewhere than to the next address (R110, R150). -/
abbrev isJump (i : Instr) : Prop := i = .poppc ∨ ∃ n, i = .emulate n

section
variable {i : Instr} {s : State}

theorem isJump_of_pcAfter_ne (h : pcAfter i s ≠ s.pc + 1#32) : isJump i := by
  cases i with
  | poppc => exact .inl rfl
  | emulate n => exact .inr ⟨n, rfl⟩
  | _ => exact absurd rfl h

theorem idimAfter_of_isJump (h : isJump i) : idimAfter i s = false := by
  rcases h with rfl | ⟨n, rfl⟩ <;> rfl

/-- Where `idim` can come from (R24): an IM sets it, BREAKPOINT and the unsupported bytes pass it on. -/
theorem idimAfter_eq_true (h : idimAfter i s = true) : (∃ p, i = .im p) ∨ (s.idim = true ∧ keepsIdim i = true) := by
  cases hc : clearsIdim i with
  | true => simp [idimAfter, hc] at h
  | false =>
    cases hk : keepsIdim i with
    | true => exact .inr ⟨by simpa [idimAfter, hc, hk] using h, rfl⟩
    | false => exact .inl ((isIm_iff i).2 ⟨hc, hk⟩)

/-- An instruction that leaves `idim` set is no jump. -/
theorem pcAfter_of_idimAfter (h : idimAfter i s = true) : pcAfter i s = s.pc + 1#32 := by
  by_contra hpc
  have hclear : idimAfter i s = false := idimAfter_of_isJump (isJump_of_pcAfter_ne hpc)
  rw [h] at hclear
  cases hclear

end

/-- Settles O44: the step leaves the row of its instruction. -/
theorem jumpTargetsAreReachedWithIdimClear : Obligations.JumpTargetsAreReachedWithIdimClear := by
  intro s t h
  obtain rfl : t = stateAfter s.fetchInstr s := eq_stateAfter_of_exec_next h
  exact ⟨isJump_of_pcAfter_ne, idimAfter_of_isJump, fun hidim => ⟨pcAfter_of_idimAfter hidim, idimAfter_eq_true hidim⟩⟩

end Sys2Proof.Machine
end

section
/-! PROOFS. Construction and the reset state (70_reset_and_hazards.md R190, R192, R193, R195). -/

namespace Sys2Proof.Machine

/-- Construction refuses the empty region table (log 18). -/
theorem construct_nil (cfg : Config) : State.construct cfg [] = none := rfl

theorem construct_of_ne_nil (cfg : Config) {regions : List Region} (h : regions ≠ []) :
    State.construct cfg regions = some { cfg, regions, pc := cfg.resetPc, sp := cfg.resetSp, idim := false } := by
  cases regions with
  | nil => exact absurd rfl h
  | cons r rest => rfl

theorem flags_of_idim_eq_false {s : State} (h : s.idim = false) : s.flags = 0x00#8 := by
  simp [State.flags, h]

/-- A region with nothing loaded is well formed (R193). -/
theorem Region.wf_of_storage_eq_nil {r : Region} (h : r.storage = []) : r.wf := by
  simp [Region.wf, Memory.wf, h]

/-- Settles O40: nothing is loaded into the conventional platform's one region. -/
theorem resetMemoryIsWellFormed : Obligations.ResetMemoryIsWellFormed := by
  intro r hr
  obtain rfl := List.mem_singleton.1 hr
  exact Region.wf_of_storage_eq_nil rfl

/-- Settles O41: the constructed state, field by field. -/
theorem constructionSetsTheResetValues : Obligations.ConstructionSetsTheResetValues := fun cfg _ h =>
  ⟨_, construct_of_ne_nil cfg h, rfl, rfl, rfl, rfl, rfl, flags_of_idim_eq_false rfl⟩

/-- Settles O42: construction on R192's platform gives the reset state, whose fields are R192's values. -/
theorem resetIsTheConventionalPlatform : Obligations.ResetIsTheConventionalPlatform :=
  ⟨construct_conventional, rfl, rfl, rfl, rfl, construct_nil⟩

end Sys2Proof.Machine
end
